-- ==== Sys2Proof/Word.lean ====
section
/-! DEFINITION. The words the BSME moves: 64-bit registers and command words, 8-bit token bytes, and byte offsets in
the 4096-byte host window (spec/00_scope.md R6, spec/20_memory.md R60, R61). -/

namespace Sys2Proof

/-- A register value or a command word (R6: host data width 64). -/
abbrev Word := BitVec 64

/-- One byte of the token buffer (R62). -/
abbrev Byte := BitVec 8

/-- A byte offset in the host window, 0x000 to 0xFFF (R61). -/
abbrev Offset := BitVec 12

/-- A 5-bit symbol value (R11 "Symbol"). -/
abbrev Symbol := BitVec 5

end Sys2Proof
end

