-- ==== Sys2Proof/Config.lean ====
section
/-! DEFINITION. What an implementation fixes (spec/00_scope.md R6). None of it can be switched at run time. The spec
leaves no value open (spec/93_implementation_defined.md section 3), so there is no free value here. The platform's
open parameters BSME_BASE, BRIDGE and RESET_SOURCE lie outside the BSME: the model works in window offsets
(notes/assumptions/7.md, 16.md). -/

namespace Sys2Proof.Config

/-- MAX_FIELDS: entries of the field register file (R6, D3). -/
abbrev maxFields : Nat := 8

/-- WIDTH_MAX: the largest field width and remaining count (R6). -/
abbrev widthMax : Nat := 64

/-- SYMBOL_BITS: bits per output symbol (R6). -/
abbrev symbolBits : Nat := 5

/-- TOKEN_BYTES: size of the token buffer (R6, D4). -/
abbrev tokenBytes : Nat := 128

/-- The largest value the 16-bit TLEN holds; a host write saturates here (R6, R33). -/
abbrev tlenMax : Nat := 0xFFFF

/-- The constant the ID register reads as (spec/10_state.md R22). -/
def idWord : Word := 0x0080_0801_4253_4D45

end Sys2Proof.Config
end

