-- ==== Sys2Proof/Syntax.lean ====
section
/-! DEFINITION. The thirteen commands of spec/30_encoding.md R93, one constructor per row of
spec/opcode_table.json. Operands are the natural numbers of R91: a field index f, a bit count k or a symbol value v;
SYMIN's operand is a byte. -/

namespace Sys2Proof

/-- A BSME command with its operands (R91, R93). -/
inductive Instr where
  /-- NOP (spec/44_control.md R220). -/
  | nop
  /-- MASK k (spec/40_mask.md R121). -/
  | mask (k : Nat)
  /-- HASBITS fN, k (spec/41_field.md R132). -/
  | hasbits (f k : Nat)
  /-- EXTRACT fN, k (spec/41_field.md R135). -/
  | extract (f k : Nat)
  /-- APPEND fN, k; the bits appended are in ARG (spec/41_field.md R140). -/
  | append (f k : Nat)
  /-- FRESTORE fN (spec/41_field.md R145). -/
  | frestore (f : Nat)
  /-- FCLEAR fN (spec/41_field.md R146). -/
  | fclear (f : Nat)
  /-- SYMOUT v (spec/42_symbol_rom.md R162). -/
  | symout (v : Nat)
  /-- SYMIN b (spec/42_symbol_rom.md R163). -/
  | symin (b : Byte)
  /-- ENCODE (spec/43_codec.md R183). -/
  | encode
  /-- CHECKLEN (spec/43_codec.md R190). -/
  | checklen
  /-- DECODE (spec/43_codec.md R191). -/
  | decode
  /-- CLRSTAT (spec/44_control.md R221). -/
  | clrstat
deriving DecidableEq, Repr

end Sys2Proof
end

