-- ==== Sys2Proof/WellFormed.lean ====
section
/-! DEFINITION. Which commands have an encoding: the F field has 4 bits and the IMM field 8 (spec/30_encoding.md R90,
R91). F = 8 to 15 is encodable (R94) and fails only when it runs. -/

namespace Sys2Proof

/-- F holds a field index 0 to 15 (R91). -/
abbrev fitsF (f : Nat) : Prop := f < 16

/-- IMM holds a bit count or symbol value 0 to 255 (R91). -/
abbrev fitsImm (k : Nat) : Prop := k < 256

/-- The check: the command's operands fit the command word's fields. -/
def Instr.wellFormed : Instr → Bool
  | .nop | .symin _ | .encode | .checklen | .decode | .clrstat => true
  | .mask k | .symout k => decide (fitsImm k)
  | .hasbits f k | .extract f k | .append f k => decide (fitsF f) && decide (fitsImm k)
  | .frestore f | .fclear f => decide (fitsF f)

/-- The command has an encoding. -/
abbrev Instr.WellFormed (i : Instr) : Prop := i.wellFormed = true

end Sys2Proof
end

