-- ==== Sys2Proof/Decode.lean ====
section
/-! DEFINITION. The command word (spec/30_encoding.md): its fields, the opcode map, the total decoder of R95, and the
encoder of R99 written from the same map. A command is one 64-bit CMD write; nothing else is fetched (R98). -/

namespace Sys2Proof

/-- The opcode column of R93. -/
inductive Opcode where
  | nop | mask | hasbits | extract | append | frestore | fclear | symout | symin | encode | checklen | decode | clrstat
deriving DecidableEq, Repr

/-- The OP byte of each command (R93). -/
def Opcode.byte : Opcode → BitVec 8
  | .nop => 0x00
  | .mask => 0x01
  | .hasbits => 0x10
  | .extract => 0x11
  | .append => 0x12
  | .frestore => 0x13
  | .fclear => 0x14
  | .symout => 0x20
  | .symin => 0x21
  | .encode => 0x30
  | .checklen => 0x31
  | .decode => 0x32
  | .clrstat => 0x3F

/-- The opcode map read backwards: none for the 243 unassigned OP values (R96). -/
def Opcode.ofByte? (b : BitVec 8) : Option Opcode :=
  match b.toNat with
  | 0x00 => some .nop
  | 0x01 => some .mask
  | 0x10 => some .hasbits
  | 0x11 => some .extract
  | 0x12 => some .append
  | 0x13 => some .frestore
  | 0x14 => some .fclear
  | 0x20 => some .symout
  | 0x21 => some .symin
  | 0x30 => some .encode
  | 0x31 => some .checklen
  | 0x32 => some .decode
  | 0x3F => some .clrstat
  | _ => none

/-- The "uses F" column of R93. -/
def Opcode.usesF : Opcode → Bool
  | .hasbits | .extract | .append | .frestore | .fclear => true
  | .nop | .mask | .symout | .symin | .encode | .checklen | .decode | .clrstat => false

/-- The "uses IMM" column of R93. -/
def Opcode.usesImm : Opcode → Bool
  | .mask | .hasbits | .extract | .append | .symout | .symin => true
  | .nop | .frestore | .fclear | .encode | .checklen | .decode | .clrstat => false

/-- The command an opcode and its operand fields name; an unused field is dropped (R91, R93). -/
def Opcode.instr (op : Opcode) (f : BitVec 4) (imm : BitVec 8) : Instr :=
  match op with
  | .nop => .nop
  | .mask => .mask imm.toNat
  | .hasbits => .hasbits f.toNat imm.toNat
  | .extract => .extract f.toNat imm.toNat
  | .append => .append f.toNat imm.toNat
  | .frestore => .frestore f.toNat
  | .fclear => .fclear f.toNat
  | .symout => .symout imm.toNat
  | .symin => .symin imm
  | .encode => .encode
  | .checklen => .checklen
  | .decode => .decode
  | .clrstat => .clrstat

/-! The fields of a command word (R90). -/

/-- UPPER, c[63:32]. -/
def upperField (c : Word) : BitVec 32 := c.extractLsb' 32 32
/-- OP, c[31:24]. -/
def opField (c : Word) : BitVec 8 := c.extractLsb' 24 8
/-- F, c[23:20]. -/
def fField (c : Word) : BitVec 4 := c.extractLsb' 20 4
/-- IMM, c[19:12]. -/
def immField (c : Word) : BitVec 8 := c.extractLsb' 12 8
/-- RSV, c[11:0]. -/
def rsvField (c : Word) : BitVec 12 := c.extractLsb' 0 12

/-- Why a word encodes no command (R96). All of them raise the same E_ILLEGAL; the reason is not kept (R231). -/
inductive IllegalWord where
  /-- UPPER is not 0. -/
  | upper
  /-- OP is not in the opcode map. -/
  | opcode
  /-- RSV is not 0. -/
  | reserved
  /-- F is not 0 for a command that does not use F. -/
  | unusedF
  /-- IMM is not 0 for a command that does not use IMM. -/
  | unusedImm
deriving DecidableEq, Repr

/-- The decoder of R95: total on every 64-bit value, its checks in R95's order. -/
def decode (c : Word) : Except IllegalWord Instr :=
  if upperField c ≠ 0 then .error .upper
  else
    match Opcode.ofByte? (opField c) with
    | none => .error .opcode
    | some op =>
      if rsvField c ≠ 0 then .error .reserved
      else if op.usesF = false ∧ fField c ≠ 0 then .error .unusedF
      else if op.usesImm = false ∧ immField c ≠ 0 then .error .unusedImm
      else .ok (op.instr (fField c) (immField c))

/-- The opcode of a command. -/
def Instr.opcode : Instr → Opcode
  | .nop => .nop
  | .mask _ => .mask
  | .hasbits _ _ => .hasbits
  | .extract _ _ => .extract
  | .append _ _ => .append
  | .frestore _ => .frestore
  | .fclear _ => .fclear
  | .symout _ => .symout
  | .symin _ => .symin
  | .encode => .encode
  | .checklen => .checklen
  | .decode => .decode
  | .clrstat => .clrstat

/-- The F operand of a command, 0 where it has none (R99). -/
def Instr.fOperand : Instr → Nat
  | .hasbits f _ | .extract f _ | .append f _ | .frestore f | .fclear f => f
  | .nop | .mask _ | .symout _ | .symin _ | .encode | .checklen | .decode | .clrstat => 0

/-- The IMM operand of a command, 0 where it has none (R99). -/
def Instr.immOperand : Instr → Nat
  | .mask k | .hasbits _ k | .extract _ k | .append _ k | .symout k => k
  | .symin b => b.toNat
  | .nop | .frestore _ | .fclear _ | .encode | .checklen | .decode | .clrstat => 0

/-- The command word with the given fields: UPPER, OP, F, IMM and RSV, most significant first (R90). -/
def commandWord (op : BitVec 8) (f : BitVec 4) (imm : BitVec 8) : Word :=
  0#32 ++ op ++ f ++ imm ++ 0#12

/-- The encoder: the assembled word of R99, (OP << 24) | (f << 20) | (imm << 12) with UPPER = 0. -/
def encode (i : Instr) : Word :=
  commandWord i.opcode.byte (BitVec.ofNat 4 i.fOperand) (BitVec.ofNat 8 i.immOperand)

/-- What the decoder reads from an opcode-table word: the low nbits bits of w as the CMD value, every bit above them 0
(R90: the table's 32 bits are c[31:0]). -/
def decodeTableWord (nbits w : Nat) : Option Instr :=
  match decode (BitVec.ofNat 64 (w % 2 ^ nbits)) with
  | .ok i => some i
  | .error _ => none

/-- The match and mask columns of R93, over c[31:0]. -/
def Opcode.row : Opcode → BitVec 32 × BitVec 32
  | .nop => (0x0000_0000, 0xFFFF_FFFF)
  | .mask => (0x0100_0000, 0xFFF0_0FFF)
  | .hasbits => (0x1000_0000, 0xFF00_0FFF)
  | .extract => (0x1100_0000, 0xFF00_0FFF)
  | .append => (0x1200_0000, 0xFF00_0FFF)
  | .frestore => (0x1300_0000, 0xFF0F_FFFF)
  | .fclear => (0x1400_0000, 0xFF0F_FFFF)
  | .symout => (0x2000_0000, 0xFFF0_0FFF)
  | .symin => (0x2100_0000, 0xFFF0_0FFF)
  | .encode => (0x3000_0000, 0xFFFF_FFFF)
  | .checklen => (0x3100_0000, 0xFFFF_FFFF)
  | .decode => (0x3200_0000, 0xFFFF_FFFF)
  | .clrstat => (0x3F00_0000, 0xFFFF_FFFF)

/-- A command word is legal for a row iff UPPER is 0 and the row's masked bits match (R93). -/
def Opcode.matchesWord (op : Opcode) (c : Word) : Bool :=
  upperField c == 0 && (c.extractLsb' 0 32 &&& op.row.2) == op.row.1

end Sys2Proof
end

