-- ==== Sys2Proof/Machine/State.lean ====
section
/-! DEFINITION. The BSME's state as plain data (spec/10_state.md R20), the port's inputs (spec/20_memory.md R60), the
reasons a step can stop, and the state after reset (spec/70_reset_and_hazards.md R260). -/

namespace Sys2Proof.Machine

/-- One entry of the field register file (R25, R130). -/
structure Field where
  /-- VALUE[f], 64 bits, stored raw (R26). -/
  value : Word
  /-- WIDTH[f], 7 bits, legal values 0 to 64 (R25). -/
  width : BitVec 7
  /-- REM[f], 7 bits: the position tracker (R25, R130). -/
  rem : BitVec 7
deriving DecidableEq, Repr

/-- The STATUS register's bits (R23). Bit 3 and bits 63:8 are reserved, read 0 and have no storage. -/
structure Status where
  /-- HB: the result of the most recent successful HASBITS. -/
  hb : Bool
  /-- ERR: the most recent command ended in an error. -/
  err : Bool
  /-- STICKY: some command has ended in an error since reset or CLRSTAT. -/
  sticky : Bool
  /-- ECODE: the most recent command's error code, 0 if it succeeded. -/
  ecode : BitVec 4
deriving DecidableEq, Repr

/-- The command error codes of spec/60_exceptions.md R231. -/
inductive ErrorCode where
  /-- E_ILLEGAL: the word encodes no command; any CMD write. -/
  | illegal
  /-- E_FIELD: F = 8 to 15 on a field command. -/
  | field
  /-- E_OPERAND: k > 64, ARG ≥ 2^k, or v > 31. -/
  | operand
  /-- E_UNDERFLOW: k > REM[f]. -/
  | underflow
  /-- E_LENGTH: TLEN ≠ EXPLEN. -/
  | length
deriving DecidableEq, Repr

/-- The token buffer as cells (index, byte), index 0 to 127, in the canonical form `Memory.wf` (Machine/Ops.lean); an
unlisted byte reads 0x00, its reset value (R38, R62). -/
abbrev Memory := List Host.Cell

/-- What reaches the BSME: the four access kinds of R60, and the platform's reset (R260, D40). -/
inductive PortInput where
  /-- RegRead(off): a 64-bit read of the register region. -/
  | regRead (off : Offset)
  /-- RegWrite(off, v): a 64-bit write of the register region. -/
  | regWrite (off : Offset) (v : Word)
  /-- TokRead(off): an 8-bit read of the token region. -/
  | tokRead (off : Offset)
  /-- TokWrite(off, b): an 8-bit write of the token region. -/
  | tokWrite (off : Offset) (b : Byte)
  /-- The platform asserts reset. -/
  | reset
deriving DecidableEq, Repr

/-- The value a completed read returns (R60). -/
inductive PortValue where
  | reg (v : Word)
  | tok (b : Byte)
deriving DecidableEq, Repr

/-- The whole state. The first eight fields are the BSME's own (R20); `inputs` and `response` are the model's
(notes/assumptions/1.md, 2.md). -/
structure State where
  /-- The field register file (R25). -/
  fields : Vector Field Config.maxFields
  /-- FCOUNT, 4 bits, 0 to 8 (R29). -/
  fcount : BitVec 4
  /-- ARG (R24). -/
  arg : Word
  /-- RESULT (R32). -/
  result : Word
  /-- STATUS (R23). -/
  status : Status
  /-- TLEN, 16 bits (R33). -/
  tlen : BitVec 16
  /-- LENOBS, 16 bits (R34). -/
  lenobs : BitVec 16
  /-- LENEXP, 8 bits (R34). -/
  lenexp : BitVec 8
  /-- TOKEN[0..127] (R38). -/
  token : Memory
  /-- The accesses the port has still to take, in port order (R73). -/
  inputs : List PortInput
  /-- The value the last completed access returned, if it was a read. -/
  response : Option PortValue
deriving DecidableEq, Repr

/-- Why a step stops with a fault. -/
inductive Fault where
  /-- The port refuses an access (R63, R64, R65): raised by a RegRead or RegWrite at a misaligned, reserved or
  out-of-region offset and by a TokRead or TokWrite outside the token region. The BSME's state is unchanged and the
  host is told by the port alone. Safe: the spec calls it a fault of the host step (R65, R268). -/
  | busError
deriving DecidableEq, Repr

/-- Why a step refuses an instruction. -/
inductive Refusal where
  /-- Raised by `exec` for an instruction that has no meaning yet; no arm of this model does. Safe: nothing is claimed
  of such a step. -/
  | notModelled (mnemonic : String)
deriving DecidableEq, Repr

/-- A field freshly constructed at its nominal width (R27, R28). -/
def Field.fresh (w : BitVec 7) : Field := { value := 0, width := w, rem := w }

/-- The label schema's widths in the source's order, and three unused entries (R28). -/
def resetFields : Vector Field Config.maxFields :=
  #v[Field.fresh 10, Field.fresh 1, Field.fresh 64, Field.fresh 6, Field.fresh 64,
     Field.fresh 0, Field.fresh 0, Field.fresh 0]

/-- The machine right after reset (R260). `inputs` and `response` are the model's: no access is pending and none has
returned a value. -/
def State.reset : State where
  fields := resetFields
  fcount := 5
  arg := 0
  result := 0
  status := { hb := false, err := false, sticky := false, ecode := 0 }
  tlen := 0
  lenobs := 0
  lenexp := 0
  token := []
  inputs := []
  response := none

end Sys2Proof.Machine
end

