-- ==== Sys2Proof/Machine/Operands.lean ====
section
/-! DEFINITION. Operand forms and the arithmetic the rules share: naturals throughout (spec/00_scope.md R7, R8), the
bit-mask primitive (spec/40_mask.md R120), ceil5 (R8), the field index check (spec/30_encoding.md R94), and the totals
the length check uses (spec/10_state.md R30, R31). -/

namespace Sys2Proof.Machine

/-- The bit-mask primitive: the n low bits set (R120). A natural number, so mask 64 does not overflow. -/
def mask (n : Nat) : Nat := (1 <<< n) - 1

/-- trunc64 (R8). -/
def trunc64 (a : Nat) : Word := BitVec.ofNat 64 a

/-- The number of 5-bit symbols t bits need: floor((t + 4) / 5) (R8). -/
def ceil5 (t : Nat) : Nat := (t + (Config.symbolBits - 1)) / Config.symbolBits

/-- The field a command's F operand names; F = 8 to 15 names none (R94). -/
def fieldIndex? (f : Nat) : Option (Fin Config.maxFields) :=
  if h : f < Config.maxFields then some ⟨f, h⟩ else none

/-- Field f of the register file. -/
def State.field (s : State) (f : Fin Config.maxFields) : Field := s.fields[f.val]

/-- The record the codec works on: fields 0 to FCOUNT−1 in index order (R25, R180). -/
def State.schema (s : State) : List Field := s.fields.toList.take s.fcount.toNat

/-- T, the sum of the schema's nominal widths (R30, R181). -/
def State.totalBits (s : State) : Nat := (s.schema.map fun x => x.width.toNat).sum

/-- The expected token length ceil5(T) (R31, R181). -/
def State.expLen (s : State) : Nat := ceil5 s.totalBits

/-- Byte lane j of a register, for a platform bridge: bits 8j+7 to 8j (R69). No rule of the BSME uses it. -/
def byteLane (v : Word) (j : Fin 8) : Byte := v.extractLsb' (8 * j.val) 8

end Sys2Proof.Machine
end

