-- ==== Sys2Proof/Machine/Flags.lean ====
section
/-! DEFINITION. STATUS: its read value (spec/10_state.md R23) and the bits an error, a success, HASBITS and CLRSTAT
write (spec/60_exceptions.md R231 to R233, spec/41_field.md R132, spec/44_control.md R221). HB is the BSME's one
condition flag (R36). -/

namespace Sys2Proof.Machine

/-- The code an error records in ECODE (R231). -/
def ErrorCode.code : ErrorCode → BitVec 4
  | .illegal => 1
  | .field => 2
  | .operand => 3
  | .underflow => 4
  | .length => 5

/-- STATUS as the host reads it: HB | ERR << 1 | STICKY << 2 | ECODE << 4 (R23). -/
def Status.word (t : Status) : Word :=
  BitVec.ofNat 64 (t.hb.toNat ||| (t.err.toNat <<< 1) ||| (t.sticky.toNat <<< 2) ||| (t.ecode.toNat <<< 4))

/-- What raising e writes in STATUS (R232). -/
def Status.failed (e : ErrorCode) (t : Status) : Status :=
  { t with err := true, sticky := true, ecode := e.code }

/-- What success writes in STATUS: ERR and ECODE become 0 (R233). -/
def Status.succeeded (t : Status) : Status := { t with err := false, ecode := 0 }

/-- HASBITS's flag (R132). -/
def Status.setHb (b : Bool) (t : Status) : Status := { t with hb := b }

/-- CLRSTAT's flags: HB and STICKY become 0 (R221). -/
def Status.cleared (t : Status) : Status := { t with hb := false, sticky := false }

/-- HASBITS's test: at least k bits remain in the field (R132, D15: every k is legal). -/
def Field.hasBits (x : Field) (k : Nat) : Bool := decide (k ≤ x.rem.toNat)

end Sys2Proof.Machine
end

