-- ==== Sys2Proof/Machine/Ops.lean ====
section
/-! DEFINITION. The named operations over the token buffer and the registers, and the two ways a command ends:
`State.raise` (spec/60_exceptions.md R232) and `State.done` (R233). Raising an error is all the "exception entry" the
BSME has: there is no handler, no saved pc and no return command (R237, R238). -/

namespace Sys2Proof.Machine

/-- An outcome of this machine. -/
abbrev Result := Host.Outcome State Fault Refusal

/-! ## The token buffer (R38, R62) -/

/-- What an unlisted token byte reads as: its reset value (R38). -/
def Memory.blank : Byte := 0x00

/-- Cells lie at rising indexes from lo up, inside the buffer, and none holds the blank byte. -/
def Memory.wfFrom : Nat → Memory → Bool
  | _, [] => true
  | lo, (i, b) :: m => decide (lo ≤ i) && decide (i < Config.tokenBytes) && b != Memory.blank && Memory.wfFrom (i + 1) m

/-- The canonical form: equal buffers are equal lists. -/
def Memory.wf (m : Memory) : Bool := Memory.wfFrom 0 m

/-- MemRead(i, 1): token byte i (R62). -/
def Memory.read : Memory → Nat → Byte
  | [], _ => Memory.blank
  | (j, b) :: m, i => if i = j then b else Memory.read m i

/-- Put byte b at index i in a canonical list; the blank byte is not listed. -/
def Memory.insert : Memory → Nat → Byte → Memory
  | [], i, b => if b = Memory.blank then [] else [(i, b)]
  | (j, c) :: m, i, b =>
    if i < j then (if b = Memory.blank then (j, c) :: m else (i, b) :: (j, c) :: m)
    else if i = j then (if b = Memory.blank then m else (i, b) :: m)
    else (j, c) :: Memory.insert m i b

/-- MemWrite(i, 1, b): token byte i becomes b (R62). The buffer has 128 bytes; no command and no accepted access names
another index (R63, R70), and such a write changes nothing (notes/assumptions/8.md). -/
def Memory.write (m : Memory) (i : Nat) (b : Byte) : Memory :=
  if i < Config.tokenBytes then Memory.insert m i b else m

/-- Write consecutive bytes from index i up. -/
def Memory.writeFrom : Memory → Nat → List Byte → Memory
  | m, _, [] => m
  | m, i, b :: bs => Memory.writeFrom (Memory.write m i b) (i + 1) bs

/-! ## The field register file (R25) -/

/-- Replace field f. -/
def State.setField (s : State) (f : Fin Config.maxFields) (x : Field) : State :=
  { s with fields := s.fields.set f.val x f.isLt }

/-- REM := WIDTH, the source's "width is restored to nominal" (R145, R182). -/
def Field.restored (x : Field) : Field := { x with rem := x.width }

/-- Restore REM of fields 0 to FCOUNT−1 (R182). -/
def State.restoredFields (s : State) : Vector Field Config.maxFields :=
  s.fields.mapIdx fun i x => if i < s.fcount.toNat then x.restored else x

/-! ## How a command ends -/

/-- raise E_X: record the error and change nothing else (R232). LENOBS and LENEXP are written only by E_LENGTH. -/
def State.raise (e : ErrorCode) (s : State) : State :=
  { s with
    status := s.status.failed e
    lenobs := if e = .length then s.tlen else s.lenobs
    lenexp := if e = .length then BitVec.ofNat 8 s.expLen else s.lenexp }

/-- done: record success (R233). -/
def State.done (s : State) : State := { s with status := s.status.succeeded }

/-- RESULT := v, then done. -/
def State.doneWith (v : Word) (s : State) : State := State.done { s with result := v }

end Sys2Proof.Machine
end

