-- ==== Sys2Proof/Machine/Bitmask.lean ====
section
/-! DEFINITION. The command that exposes the bit-mask primitive (spec/40_mask.md). -/

namespace Sys2Proof.Machine

/-- MASK k (R121): RESULT := mask(k); k > 64 raises E_OPERAND. -/
def execMask (k : Nat) (s : State) : Result :=
  if k > Config.widthMax then .next (s.raise .operand)
  else .next (s.doneWith (trunc64 (mask k)))

end Sys2Proof.Machine
end

