-- ==== Sys2Proof/Machine/SymbolRom.lean ====
section
/-! DEFINITION. The alphabet ROM, its lenient inverse and the two commands that expose them (spec/42_symbol_rom.md).
The byte values are ASCII (R160; notes/assumptions/13.md). -/

namespace Sys2Proof.Machine

/-- R160's byte column for v = 0 to 25: a to z. -/
def romLetters : List Byte :=
  [0x61, 0x62, 0x63, 0x64, 0x65, 0x66, 0x67, 0x68, 0x69, 0x6A, 0x6B, 0x6C, 0x6D] ++
  [0x6E, 0x6F, 0x70, 0x71, 0x72, 0x73, 0x74, 0x75, 0x76, 0x77, 0x78, 0x79, 0x7A]

/-- R160's byte column for v = 26 to 31: 2 to 7. -/
def romDigits : List Byte := [0x32, 0x33, 0x34, 0x35, 0x36, 0x37]

/-- The 32 bytes of the encode ROM, index = value (R160). -/
def romTable : List Byte := romLetters ++ romDigits

/-- ENC_ROM[v] (R160). -/
def encRom (v : Symbol) : Byte := romTable.getD v.toNat 0

/-- DEC_ROM[b]: the v with ENC_ROM[v] = b, and 0 for every byte outside the alphabet (R161). -/
def decRom (b : Byte) : Symbol :=
  if romTable.idxOf b < 32 then BitVec.ofNat 5 (romTable.idxOf b) else 0

/-- SYMOUT v (R162): RESULT := ENC_ROM[v]; v > 31 raises E_OPERAND. -/
def execSymout (v : Nat) (s : State) : Result :=
  if v > 31 then .next (s.raise .operand)
  else .next (s.doneWith ((encRom (BitVec.ofNat 5 v)).setWidth 64))

/-- SYMIN b (R163): RESULT := DEC_ROM[b], for every byte. -/
def execSymin (b : Byte) (s : State) : Result :=
  .next (s.doneWith ((decRom b).setWidth 64))

end Sys2Proof.Machine
end

