-- ==== Sys2Proof/Machine/Codec.lean ====
section
/-! DEFINITION. The symbol codec: ENCODE, CHECKLEN and DECODE (spec/43_codec.md). The working variables of
spec/10_state.md R39 are naturals (spec/00_scope.md R8) and live only inside one command. The `while` loops are
bounded by the field's width, which they lower by at least 1 a turn (notes/assumptions/11.md). -/

namespace Sys2Proof.Machine

/-! ## ENCODE -/

/-- ENCODE's accumulator, its count of leftover bits, and the symbols emitted so far, in order (R39, R183). -/
structure Slicer where
  acc : Nat
  lo : Nat
  out : List Symbol
deriving DecidableEq, Repr

/-- Before the first field. -/
def Slicer.start : Slicer := { acc := 0, lo := 0, out := [] }

/-- Emit the accumulator as a symbol and empty it. -/
def Slicer.emit (z : Slicer) (acc : Nat) : Slicer := { acc := 0, lo := 0, out := z.out ++ [BitVec.ofNat 5 acc] }

/-- The `while r >= 5 - lo` loop over a field of value v with r bits remaining; answers the bits left. -/
def sliceLoop (v : Nat) : Nat → Nat → Slicer → Nat × Slicer
  | 0, r, z => (r, z)
  | fuel + 1, r, z =>
    if r ≥ 5 - z.lo then
      sliceLoop v fuel (r - (5 - z.lo)) (z.emit (z.acc ||| ((v >>> (r - (5 - z.lo))) &&& mask (5 - z.lo))))
    else (r, z)

/-- Fold the field's last r bits, 0 < r < 5 − lo, just below the leftover bits (R183). -/
def Slicer.fold (z : Slicer) (v r : Nat) : Slicer :=
  if r > 0 then { z with acc := z.acc ||| ((v &&& mask r) <<< (5 - z.lo - r)), lo := z.lo + r } else z

/-- One field: whole symbols, then the fold. -/
def sliceField (z : Slicer) (x : Field) : Slicer :=
  (sliceLoop x.value.toNat x.width.toNat x.width.toNat z).2.fold x.value.toNat
    (sliceLoop x.value.toNat x.width.toNat x.width.toNat z).1

/-- The final symbol, its low 5 − lo bits 0, if bits are left over. -/
def Slicer.finish (z : Slicer) : List Symbol := if z.lo > 0 then z.out ++ [BitVec.ofNat 5 z.acc] else z.out

/-- The symbols ENCODE emits for a record (R183). -/
def encodeSymbols (xs : List Field) : List Symbol := (xs.foldl sliceField Slicer.start).finish

/-- ENCODE (R183): the token's bytes to TOKEN[0..L−1], L to TLEN, REM restored; VALUE is not changed (R182, C2). -/
def execEncode (s : State) : Result :=
  .next (State.done { s with
    token := s.token.writeFrom 0 ((encodeSymbols s.schema).map encRom)
    tlen := BitVec.ofNat 16 (encodeSymbols s.schema).length
    fields := s.restoredFields })

/-! ## CHECKLEN -/

/-- Run act if the token length is the expected one, else raise E_LENGTH (R190, R191). -/
def withLength (s : State) (act : Result) : Result :=
  if s.tlen.toNat ≠ s.expLen then .next (s.raise .length) else act

/-- CHECKLEN (R190): the length check alone. -/
def execChecklen (s : State) : Result := withLength s (.next s.done)

/-! ## DECODE -/

/-- DECODE's symbol cursor and the unconsumed bits of the current symbol, 1 to 5 (R39, R191). -/
structure Cursor where
  c : Nat
  sba : Nat
deriving DecidableEq, Repr

/-- Before the first field: the whole of symbol 0 is unconsumed. -/
def Cursor.start : Cursor := { c := 0, sba := 5 }

/-- Advance to the next symbol. -/
def Cursor.advance (u : Cursor) : Cursor := { c := u.c + 1, sba := 5 }

/-- sv[c] as a natural number. Every read lies inside sv (R192; notes/assumptions/11.md). -/
def symbolValue (sv : List Symbol) (c : Nat) : Nat := (sv.getD c 0).toNat

/-- The `while r >= sba` loop: append the rest of each symbol to val; answers val and the bits still needed. -/
def unsliceLoop (sv : List Symbol) : Nat → Nat → Nat → Cursor → Nat × Nat × Cursor
  | 0, val, r, u => (val, r, u)
  | fuel + 1, val, r, u =>
    if r ≥ u.sba then
      unsliceLoop sv fuel ((val <<< u.sba) ||| (symbolValue sv u.c &&& mask u.sba)) (r - u.sba) u.advance
    else (val, r, u)

/-- The field's last r bits, 0 < r < sba: the most significant unconsumed bits of the current symbol (R191). -/
def takeTop (sv : List Symbol) (val r : Nat) (u : Cursor) : Nat × Cursor :=
  if r > 0 then
    ((val <<< r) ||| ((symbolValue sv u.c >>> (u.sba - r)) &&& mask r), { u with sba := u.sba - r })
  else (val, u)

/-- The value of one field of width w, and the cursor after it. -/
def unsliceField (sv : List Symbol) (w : Nat) (u : Cursor) : Nat × Cursor :=
  takeTop sv (unsliceLoop sv w 0 w u).1 (unsliceLoop sv w 0 w u).2.1 (unsliceLoop sv w 0 w u).2.2

/-- newval for every width of the schema, in order (R191). -/
def unsliceFields (sv : List Symbol) : List Nat → Cursor → List Nat
  | [], _ => []
  | w :: ws, u => (unsliceField sv w u).1 :: unsliceFields sv ws (unsliceField sv w u).2

/-- The symbol values of TOKEN[0..TLEN−1], unknown bytes as 0 (R191, R193). -/
def State.tokenSymbols (s : State) : List Symbol :=
  (List.range s.tlen.toNat).map fun j => decRom (s.token.read j)

/-- The decoded value of each schema field. -/
def State.newValues (s : State) : List Nat :=
  unsliceFields s.tokenSymbols (s.schema.map fun x => x.width.toNat) Cursor.start

/-- The field file after DECODE: fields 0 to FCOUNT−1 decoded and restored, the others untouched (R182, R191). -/
def State.decodedFields (s : State) : Vector Field Config.maxFields :=
  s.fields.mapIdx fun i x =>
    match s.newValues[i]? with
    | some v => { x.restored with value := trunc64 v }
    | none => x

/-- DECODE (R191): the length check, then every field computed, then the field file written. -/
def execDecode (s : State) : Result :=
  withLength s (.next (State.done { s with fields := s.decodedFields }))

end Sys2Proof.Machine
end

