-- ==== Sys2Proof/Machine/Control.lean ====
section
/-! DEFINITION. The commands that compute nothing (spec/44_control.md). -/

namespace Sys2Proof.Machine

/-- NOP (R220): report success. -/
def execNop (s : State) : Result := .next s.done

/-- CLRSTAT (R221): clear HB, STICKY, LENOBS and LENEXP, then report success. -/
def execClrstat (s : State) : Result :=
  .next (State.done { s with status := s.status.cleared, lenobs := 0, lenexp := 0 })

end Sys2Proof.Machine
end

