-- ==== Sys2Proof/Machine/Fields.lean ====
section
/-! DEFINITION. The field commands (spec/41_field.md). Every one names a field with F, and F = 8 to 15 raises E_FIELD
before anything else is checked (R94, R235). -/

namespace Sys2Proof.Machine

/-- Run a field command on the field F names, or raise E_FIELD (R94). -/
def withField (f : Nat) (s : State) (act : Fin Config.maxFields → Result) : Result :=
  match fieldIndex? f with
  | none => .next (s.raise .field)
  | some i => act i

/-- HASBITS fN, k (R132): HB := REM[f] ≥ k, for every k. -/
def execHasbits (f k : Nat) (s : State) : Result :=
  withField f s fun i => .next (State.done { s with status := s.status.setHb ((s.field i).hasBits k) })

/-- The k bits just below the field's remaining boundary (R130, R135): the extracted value, for k ≤ REM. -/
def Field.front (x : Field) (k : Nat) : Nat := (x.value.toNat >>> (x.rem.toNat - k)) &&& mask k

/-- The field after k bits are extracted: REM lowered, VALUE masked to the new REM (R131, R135). -/
def Field.dropFront (x : Field) (k : Nat) : Field :=
  { x with
    value := trunc64 (x.value.toNat &&& mask (x.rem.toNat - k))
    rem := BitVec.ofNat 7 (x.rem.toNat - k) }

/-- EXTRACT fN, k (R135). -/
def execExtract (f k : Nat) (s : State) : Result :=
  withField f s fun i =>
    if k > Config.widthMax then .next (s.raise .operand)
    else if k > (s.field i).rem.toNat then .next (s.raise .underflow)
    else .next ((s.setField i ((s.field i).dropFront k)).doneWith (trunc64 ((s.field i).front k)))

/-- The field after the k bits `bits` are appended: VALUE shifted unmasked, REM lowered (R140). -/
def Field.pushBack (x : Field) (k bits : Nat) : Field :=
  { x with
    value := trunc64 ((x.value.toNat <<< k) ||| bits)
    rem := BitVec.ofNat 7 (x.rem.toNat - k) }

/-- APPEND fN, k (R140): the bits come from ARG and must fit in k bits. -/
def execAppend (f k : Nat) (s : State) : Result :=
  withField f s fun i =>
    if k > Config.widthMax then .next (s.raise .operand)
    else if s.arg.toNat > mask k then .next (s.raise .operand)
    else if k > (s.field i).rem.toNat then .next (s.raise .underflow)
    else .next (State.done (s.setField i ((s.field i).pushBack k s.arg.toNat)))

/-- FRESTORE fN (R145): REM := WIDTH, VALUE kept. -/
def execFrestore (f : Nat) (s : State) : Result :=
  withField f s fun i => .next (State.done (s.setField i (s.field i).restored))

/-- FCLEAR fN (R146): VALUE := 0 and REM := WIDTH. -/
def execFclear (f : Nat) (s : State) : Result :=
  withField f s fun i => .next (State.done (s.setField i { (s.field i).restored with value := 0 }))

end Sys2Proof.Machine
end

