-- ==== Sys2Proof/Machine/Dispatch.lean ====
section
/-! DEFINITION. The one dispatch from a decoded command to its meaning. -/

namespace Sys2Proof.Machine

def exec (i : Instr) (s : State) : Host.Outcome State Fault Refusal :=
  match i with
  | .nop => Sys2Proof.Machine.execNop s
  | .mask k => Sys2Proof.Machine.execMask k s
  | .hasbits f k => Sys2Proof.Machine.execHasbits f k s
  | .extract f k => Sys2Proof.Machine.execExtract f k s
  | .append f k => Sys2Proof.Machine.execAppend f k s
  | .frestore f => Sys2Proof.Machine.execFrestore f s
  | .fclear f => Sys2Proof.Machine.execFclear f s
  | .symout v => Sys2Proof.Machine.execSymout v s
  | .symin b => Sys2Proof.Machine.execSymin b s
  | .encode => Sys2Proof.Machine.execEncode s
  | .checklen => Sys2Proof.Machine.execChecklen s
  | .decode => Sys2Proof.Machine.execDecode s
  | .clrstat => Sys2Proof.Machine.execClrstat s

end Sys2Proof.Machine
end

