-- ==== Sys2Proof/Machine/Registers.lean ====
section
/-! DEFINITION. The host window: which register or token byte an offset names (spec/20_memory.md R61 to R64), what each
register reads as, and what a host write does to it (spec/10_state.md R21 to R34). CMD's write, which runs a command,
is in Machine/Port.lean. -/

namespace Sys2Proof.Machine

/-- The registers of R61. -/
inductive Reg where
  | id | cmd | status | arg | result | fcount | tlen | tbits | explen | lenobs | lenexp
  | fvalue (f : Fin Config.maxFields)
  | fctrl (f : Fin Config.maxFields)
deriving DecidableEq, Repr

/-- The offset column of R61. -/
def Reg.offset : Reg → Offset
  | .id => 0x000
  | .cmd => 0x008
  | .status => 0x010
  | .arg => 0x018
  | .result => 0x020
  | .fcount => 0x028
  | .tlen => 0x030
  | .tbits => 0x038
  | .explen => 0x040
  | .lenobs => 0x048
  | .lenexp => 0x050
  | .fvalue f => BitVec.ofNat 12 (0x080 + 16 * f.val)
  | .fctrl f => BitVec.ofNat 12 (0x088 + 16 * f.val)

/-- The field-file register at offset n, for 0x080 ≤ n ≤ 0x0FF and n a multiple of 8 (R61). -/
def fieldRegAt? (n : Nat) : Option Reg :=
  if n < 0x080 then none
  else
    match fieldIndex? ((n - 0x080) / 16) with
    | none => none
    | some f => if n % 16 = 0 then some (.fvalue f) else if n % 16 = 8 then some (.fctrl f) else none

/-- The register an offset names; none where a register access is a bus error: misaligned, reserved, or outside
0x000 to 0x0FF (R63, R64, R71). -/
def Reg.at? (off : Offset) : Option Reg :=
  match off.toNat with
  | 0x000 => some .id
  | 0x008 => some .cmd
  | 0x010 => some .status
  | 0x018 => some .arg
  | 0x020 => some .result
  | 0x028 => some .fcount
  | 0x030 => some .tlen
  | 0x038 => some .tbits
  | 0x040 => some .explen
  | 0x048 => some .lenobs
  | 0x050 => some .lenexp
  | n => fieldRegAt? n

/-- The token index an offset names: byte i is at 0x100 + i, i = 0 to 127 (R62, R63). -/
def tokenIndex? (off : Offset) : Option Nat :=
  if 0x100 ≤ off.toNat ∧ off.toNat < 0x100 + Config.tokenBytes then some (off.toNat - 0x100) else none

/-- FCTRL's read value: WIDTH | REM << 8 (R27). -/
def Field.ctrlWord (x : Field) : Word := BitVec.ofNat 64 (x.width.toNat ||| (x.rem.toNat <<< 8))

/-- What a RegRead of each register returns. -/
def State.readReg (s : State) : Reg → Word
  | .id => Config.idWord                          -- R22
  | .cmd => 0                                     -- R21
  | .status => s.status.word                      -- R23
  | .arg => s.arg                                 -- R24
  | .result => s.result                           -- R32
  | .fcount => s.fcount.setWidth 64               -- R29
  | .tlen => s.tlen.setWidth 64                   -- R33
  | .tbits => BitVec.ofNat 64 s.totalBits         -- R30
  | .explen => BitVec.ofNat 64 s.expLen           -- R31
  | .lenobs => s.lenobs.setWidth 64               -- R34
  | .lenexp => s.lenexp.setWidth 64               -- R34
  | .fvalue f => (s.field f).value                -- R26
  | .fctrl f => (s.field f).ctrlWord              -- R27

/-- FCOUNT := v if v ≤ 8, else the write is ignored (R29). -/
def State.writeFcount (s : State) (v : Word) : State :=
  if v.toNat ≤ Config.maxFields then { s with fcount := v.setWidth 4 } else s

/-- TLEN := min(v, 0xFFFF) (R33). -/
def State.writeTlen (s : State) (v : Word) : State :=
  { s with tlen := BitVec.ofNat 16 (min v.toNat Config.tlenMax) }

/-- VALUE[f] := v, all 64 bits, WIDTH and REM kept (R26). -/
def State.writeFvalue (s : State) (f : Fin Config.maxFields) (v : Word) : State :=
  s.setField f { s.field f with value := v }

/-- WIDTH[f] := REM[f] := v[6:0] if that is at most 64, else the write is ignored (R27). -/
def State.writeFctrl (s : State) (f : Fin Config.maxFields) (v : Word) : State :=
  if (v.setWidth 7).toNat ≤ Config.widthMax then
    s.setField f { s.field f with width := v.setWidth 7, rem := v.setWidth 7 }
  else s

/-- What a RegWrite to each register other than CMD does; read-only registers ignore it (R67). CMD stores nothing
(R21): the command its write runs is `runCommand` (Machine/Port.lean). -/
def State.writeReg (s : State) (r : Reg) (v : Word) : State :=
  match r with
  | .arg => { s with arg := v }                   -- R24
  | .fcount => s.writeFcount v                    -- R29
  | .tlen => s.writeTlen v                        -- R33
  | .fvalue f => s.writeFvalue f v                -- R26
  | .fctrl f => s.writeFctrl f v                  -- R27
  | .id | .status | .result | .tbits | .explen | .lenobs | .lenexp | .cmd => s

end Sys2Proof.Machine
end

