-- ==== Sys2Proof/Machine/Port.lean ====
section
/-! DEFINITION. The host port (spec/20_memory.md R60): running the command of a CMD write, each access kind, the
platform's reset, and how the host goes on after a bus error. -/

namespace Sys2Proof.Machine

/-- Run the command a CMD value encodes; a word that encodes none raises E_ILLEGAL (R21, R95). -/
def runCommand (c : Word) (s : State) : Result :=
  match decode c with
  | .ok i => exec i s
  | .error _ => .next (s.raise .illegal)

/-- RegRead (R60): the register's value, or a bus error. -/
def regRead (off : Offset) (s : State) : Result :=
  match Reg.at? off with
  | some r => .next { s with response := some (.reg (s.readReg r)) }
  | none => .fault .busError

/-- RegWrite (R60): a CMD write runs a command, any other write its register's rule; or a bus error. -/
def regWrite (off : Offset) (v : Word) (s : State) : Result :=
  match Reg.at? off with
  | some .cmd => runCommand v s
  | some r => .next (s.writeReg r v)
  | none => .fault .busError

/-- TokRead (R62): the token byte, or a bus error. -/
def tokRead (off : Offset) (s : State) : Result :=
  match tokenIndex? off with
  | some i => .next { s with response := some (.tok (s.token.read i)) }
  | none => .fault .busError

/-- TokWrite (R62): the token byte replaced, or a bus error. -/
def tokWrite (off : Offset) (b : Byte) (s : State) : Result :=
  match tokenIndex? off with
  | some i => .next { s with token := s.token.write i b }
  | none => .fault .busError

/-- Reset (R260): every piece of the BSME's state takes its reset value. The host's later accesses are not the BSME's
state and stay pending (notes/assumptions/6.md). -/
def resetBy (s : State) : Result := .next { State.reset with inputs := s.inputs }

/-- What one port input does (R60, R260). -/
def perform (a : PortInput) (s : State) : Result :=
  match a with
  | .regRead off => regRead off s
  | .regWrite off v => regWrite off v s
  | .tokRead off => tokRead off s
  | .tokWrite off b => tokWrite off b s
  | .reset => resetBy s

/-- The state in which the port takes the oldest pending input: the input leaves the queue, and no read value is
outstanding. -/
def State.taking (s : State) (rest : List PortInput) : State := { s with inputs := rest, response := none }

/-- Take the oldest pending input in port order (R73). With none pending the BSME is idle and holds its state (R244,
R261; notes/assumptions/3.md). -/
def takeInput (s : State) : Result :=
  match s.inputs with
  | [] => .next s
  | a :: rest => perform a (s.taking rest)

/-- How the host goes on after a bus error: the refused access is over, nothing else has changed (R65, R238;
notes/assumptions/4.md). -/
def State.afterBusError (s : State) : State := s.taking s.inputs.tail

/-- The queue with a CMD write of the low nbits bits of w put first, so that the next step runs that command. -/
def cmdWriteFirst (nbits w : Nat) (rest : List PortInput) : List PortInput :=
  .regWrite Reg.cmd.offset (BitVec.ofNat 64 (w % 2 ^ nbits)) :: rest

end Sys2Proof.Machine
end

