-- ==== Sys2Proof/Machine/Step.lean ====
section
/-! DEFINITION. One step: one host access, or a reset, or idling (spec/70_reset_and_hazards.md R268). The BSME fetches
nothing (spec/20_memory.md R76): the "next instruction" is the next CMD write in the queue (notes/assumptions/5.md). -/

namespace Sys2Proof.Machine

/-- One step of the machine. -/
def step (s : State) : Host.Outcome State Fault Refusal := takeInput s

/-- s with a CMD write of the given command word as its next access. -/
def State.withFetchWord (s : State) (nbits w : Nat) : State :=
  { s with inputs := cmdWriteFirst nbits w s.inputs }

end Sys2Proof.Machine
end

