-- ==== Sys2Proof/Machine/Bitstream.lean ====
section
/-! DEFINITION. The bitstream in whose terms the spec describes a token (spec/00_scope.md R10, spec/43_codec.md R187).
The machine does not use it; claims about the codec do. -/

namespace Sys2Proof.Machine

/-- A field's low w bits, most significant first (R10). -/
def fieldBits (v w : Nat) : List Bool := (List.range w).map fun j => v.testBit (w - 1 - j)

/-- The bitstream of a list of (value, width) pairs, field 0 first (R10). -/
def bitstream (xs : List (Nat × Nat)) : List Bool := xs.flatMap fun p => fieldBits p.1 p.2

/-- The bitstream of fields 0 to FCOUNT−1 (R187). -/
def State.bitstream (s : State) : List Bool :=
  Machine.bitstream (s.schema.map fun x => (x.value.toNat, x.width.toNat))

/-- The 5-bit value whose bit 4 is bitstream bit 5j and whose bit 0 is bit 5j+4; bits beyond the stream are 0
(R187). -/
def symbolOf (B : List Bool) (j : Nat) : Nat :=
  ((List.range 5).map fun m => (B.getD (5 * j + m) false).toNat * 2 ^ (4 - m)).sum

end Sys2Proof.Machine
end

