-- ==== Sys2Proof/Machine/Program.lean ====
section
/-! DEFINITION. The spec's own assembler syntax for commands (spec/30_encoding.md R99) and the host-access statements
its programs are written in (R100). A program of statements is a list of port inputs, which the machine takes from its
queue. -/

namespace Sys2Proof.Machine

/-- The mnemonic column of R93. -/
def mnemonicText : Opcode → String
  | .nop => "NOP"
  | .mask => "MASK"
  | .hasbits => "HASBITS"
  | .extract => "EXTRACT"
  | .append => "APPEND"
  | .frestore => "FRESTORE"
  | .fclear => "FCLEAR"
  | .symout => "SYMOUT"
  | .symin => "SYMIN"
  | .encode => "ENCODE"
  | .checklen => "CHECKLEN"
  | .decode => "DECODE"
  | .clrstat => "CLRSTAT"

/-- One hexadecimal digit. -/
def hexDigit (n : Nat) : String := String.singleton ("0123456789ABCDEF".toList.getD n '0')

/-- A byte as 0xNN (R99; notes/assumptions/17.md). -/
def hexByte (b : Byte) : String := "0x" ++ hexDigit (b.toNat / 16) ++ hexDigit (b.toNat % 16)

/-- A command in the syntax of R99. -/
def asmText (i : Instr) : String :=
  mnemonicText i.opcode ++
  match i with
  | .mask k | .symout k => " " ++ toString k
  | .hasbits f k | .extract f k | .append f k => " f" ++ toString f ++ ", " ++ toString k
  | .frestore f | .fclear f => " f" ++ toString f
  | .symin b => " " ++ hexByte b
  | .nop | .encode | .checklen | .decode | .clrstat => ""

/-- The host-access statements of R100. -/
inductive Statement where
  /-- WR reg, value. -/
  | wr (r : Reg) (v : Word)
  /-- RD reg. -/
  | rd (r : Reg)
  /-- WRB TOKEN[i], byte. -/
  | wrb (i : Fin Config.tokenBytes) (b : Byte)
  /-- RDB TOKEN[i]. -/
  | rdb (i : Fin Config.tokenBytes)
  /-- CMD mnemonic operands. -/
  | cmd (i : Instr)
  /-- LOADTOK "string", the string given as its bytes. -/
  | loadtok (bytes : List Byte)
deriving DecidableEq, Repr

/-- The host offset of token byte i (R62). -/
def tokenOffset (i : Nat) : Offset := BitVec.ofNat 12 (0x100 + i)

/-- LOADTOK's byte writes, from index i up (R100). -/
def tokenLoads : Nat → List Byte → List PortInput
  | _, [] => []
  | i, b :: bs => .tokWrite (tokenOffset i) b :: tokenLoads (i + 1) bs

/-- The accesses a statement stands for (R100). -/
def Statement.accesses : Statement → List PortInput
  | .wr r v => [.regWrite r.offset v]
  | .rd r => [.regRead r.offset]
  | .wrb i b => [.tokWrite (tokenOffset i.val) b]
  | .rdb i => [.tokRead (tokenOffset i.val)]
  | .cmd i => [.regWrite Reg.cmd.offset (encode i)]
  | .loadtok bytes => tokenLoads 0 bytes ++ [.regWrite Reg.tlen.offset (BitVec.ofNat 64 bytes.length)]

/-- The accesses of a program, in order (R35, R73). -/
def programAccesses (p : List Statement) : List PortInput := p.flatMap Statement.accesses

end Sys2Proof.Machine
end

