-- ==== Sys2Proof/Safety.lean ====
section
/-! DEFINITION. What holds of every state a host can observe (spec/10_state.md R40 and R23), and what a safe run is. -/

namespace Sys2Proof.Machine

/-- R40's bounds on one field: REM ≤ WIDTH ≤ 64. -/
abbrev Field.Inv (x : Field) : Prop := x.rem.toNat ≤ x.width.toNat ∧ x.width.toNat ≤ 64

/-- R23's relations inside STATUS: ECODE holds only 0 to 5, ERR = 1 exactly when ECODE ≠ 0, and an error is also
sticky. -/
abbrev Status.Inv (t : Status) : Prop :=
  t.ecode.toNat ≤ 5 ∧ (t.err = true ↔ t.ecode ≠ 0) ∧ (t.err = true → t.sticky = true)

/-- The invariant: R40's bounds on the field file and FCOUNT, R23's on STATUS, the counts of a recorded length
mismatch (LENEXP ≤ 103, and the two counts differ unless both are 0; R34), and the canonical token buffer. -/
structure State.Inv (s : State) : Prop where
  fields : ∀ f : Fin Config.maxFields, (s.field f).Inv
  fcount : s.fcount.toNat ≤ 8
  status : s.status.Inv
  lenexp : s.lenexp.toNat ≤ 103
  counts : (s.lenobs = 0 ∧ s.lenexp = 0) ∨ s.lenobs.toNat ≠ s.lenexp.toNat
  token : s.token.wf = true

/-- The states a host can bring the BSME to: it queues accesses at will, the machine takes them, and after a bus error
the host goes on. -/
inductive Reachable : State → Prop
  | reset : Reachable State.reset
  | queue (s : State) (more : List PortInput) : Reachable s → Reachable { s with inputs := s.inputs ++ more }
  | step (s t : State) : Reachable s → step s = .next t → Reachable t
  | busError (s : State) : Reachable s → step s = .fault .busError → Reachable s.afterBusError

/-- A run of k steps is safe: it meets no refused access. -/
def SafeRun (k : Nat) (s : State) : Prop := ∃ t, Host.Core.run Sys2Proof.core k s = .next t

end Sys2Proof.Machine
end

