-- ==== Sys2Proof/Certificates/Slice0/Obligations.lean ====
section
/-! DEFINITION. The statements for the provers. Results are written as record updates and arithmetic of the spec's own
rules, not through the model's operations, so that a slip in an operation makes a statement false. An equation
`exec i s = .next { s with … }` says the result, the frame and the completion at once: every field not named keeps its
value, the token buffer among them. -/

namespace Sys2Proof.Claims

open Sys2Proof.Machine

/-- Success recorded (R233): ERR and ECODE 0, HB and STICKY kept. -/
def succeeded (s : State) : State :=
  { s with status := { hb := s.status.hb, err := false, sticky := s.status.sticky, ecode := 0 } }

/-- Error code e recorded (R232): ERR, STICKY and ECODE, nothing else. -/
def failedWith (e : BitVec 4) (s : State) : State :=
  { s with status := { hb := s.status.hb, err := true, sticky := true, ecode := e } }

/-- T = Σ WIDTH[f] over f < FCOUNT (R30). -/
def tbits (s : State) : Nat := ∑ f : Fin 8, if f.val < s.fcount.toNat then (s.field f).width.toNat else 0

/-- floor((T + 4) / 5) (R8, R31). -/
def expected (s : State) : Nat := (tbits s + 4) / 5

/-- E_LENGTH recorded (R232): as any error, and LENOBS := TLEN, LENEXP := EXPLEN. -/
def lengthFailed (s : State) : State :=
  { s with
    status := { hb := s.status.hb, err := true, sticky := true, ecode := 5 }
    lenobs := s.tlen
    lenexp := BitVec.ofNat 8 (expected s) }

/-- Bits lo+n−1 to lo of a word, as a number (R7). -/
def bitsOf (c : Word) (lo n : Nat) : Nat := c.toNat / 2 ^ lo % 2 ^ n

/-- The word (OP << 24) | (f << 20) | (imm << 12) (R99). -/
def wordOf (op f imm : Nat) : Word := BitVec.ofNat 64 (op * 2 ^ 24 + f * 2 ^ 20 + imm * 2 ^ 12)

/-- A CMD write of c raises E_ILLEGAL from every state (code 1, R231). -/
def RaisesIllegal (c : Word) : Prop := ∀ s, runCommand c s = .next (failedWith 1 s)

/-- R93's OP column. -/
def opValues : List Nat := [0x00, 0x01, 0x10, 0x11, 0x12, 0x13, 0x14, 0x20, 0x21, 0x30, 0x31, 0x32, 0x3F]
/-- The OP values whose commands use F (R93). -/
def opsWithF : List Nat := [0x10, 0x11, 0x12, 0x13, 0x14]
/-- The OP values whose commands use IMM (R93). -/
def opsWithImm : List Nat := [0x01, 0x10, 0x11, 0x12, 0x20, 0x21]

/-- R96's list of illegal words. -/
def IllegalBits (c : Word) : Prop :=
  bitsOf c 32 32 ≠ 0 ∨ bitsOf c 24 8 ∉ opValues ∨ bitsOf c 0 12 ≠ 0 ∨
    (bitsOf c 24 8 ∉ opsWithF ∧ bitsOf c 20 4 ≠ 0) ∨ (bitsOf c 24 8 ∉ opsWithImm ∧ bitsOf c 12 8 ≠ 0)

/-- The state in which the port serves an access: it has left the queue and no read value is outstanding. -/
def serving (s : State) (rest : List PortInput) : State := { s with inputs := rest, response := none }

/-- A RegRead of offset off returns g of the state and changes nothing else. -/
def ReadsAs (off : Offset) (g : State → Word) : Prop :=
  ∀ s rest, s.inputs = .regRead off :: rest →
    step s = .next { s with inputs := rest, response := some (.reg (g s)) }

/-- A RegWrite of v to offset off turns the state into g of it. -/
def WritesAs (off : Offset) (v : Word) (g : State → State) : Prop :=
  ∀ s rest, s.inputs = .regWrite off v :: rest → step s = .next (g (serving s rest))

/-- An access other than a CMD write and a reset changes nothing that `get` reads. -/
def KeptByAccesses {α : Type} (get : State → α) : Prop :=
  ∀ (s t : State) (a : PortInput) (rest : List PortInput), s.inputs = a :: rest → (∀ c, a ≠ .regWrite 0x008 c) →
    a ≠ .reset → step s = .next t → get t = get s

/-- Only commands that satisfy P change what `get` reads. -/
def OnlyWrittenBy {α : Type} (P : Instr → Prop) (get : State → α) : Prop :=
  ∀ i s t, ¬ P i → exec i s = .next t → get t = get s

/-- The state with field f of the register file replaced, every other field and everything else kept. -/
def withFieldSet (s : State) (f : Fin 8) (x : Field) : State := { s with fields := s.fields.set f.val x f.isLt }

/-- ENC_ROM by R160's two ranges: a to z, then 2 to 7. -/
def romByte (v : Nat) : Nat := if v < 26 then 0x61 + v else 0x32 + (v - 26)

/-- DEC_ROM by R161's ranges: a to z, 2 to 7, and 0 for every other byte. -/
def romValue (b : Nat) : Nat :=
  if 0x61 ≤ b ∧ b ≤ 0x7A then b - 0x61 else if 0x32 ≤ b ∧ b ≤ 0x37 then b - 0x32 + 26 else 0

/-- Bit m of the token read as one stream: symbol m/5's bit 4 − m mod 5 (R68, R187). -/
def tokenBit (s : State) (m : Nat) : Bool := (romValue (s.token.read (m / 5)).toNat).testBit (4 - m % 5)

/-- The bitstream position of field f's first bit (R10). -/
def offsetAt (s : State) (f : Fin 8) : Nat := ∑ g : Fin 8, if g < f then (s.field g).width.toNat else 0

/-- Bit m of the bitstream of fields 0 to FCOUNT−1, false beyond it (R10, R187). -/
def dataBit (s : State) (m : Nat) : Bool := s.bitstream.getD m false

/-- Every width is legal (R25); part of the invariant R40. -/
def LegalWidths (s : State) : Prop := ∀ f : Fin 8, (s.field f).width.toNat ≤ 64

/-- Two states alike but for the token buffer. -/
def SameButToken (t u : State) : Prop := { t with token := [] } = { u with token := [] }

/-- The slices R147 law 1 names: of the low w bits of v, k1 bits from the top, then k2, and so on. -/
def slicesOf (v : Nat) : Nat → List Nat → List Nat
  | _, [] => []
  | w, k :: ks => v / 2 ^ (w - k) % 2 ^ k :: slicesOf v (w - k) ks

/-- Run EXTRACT f, k for each k, collecting RESULT. -/
def extractAll (f : Nat) : List Nat → State → Option (List Nat × State)
  | [], s => some ([], s)
  | k :: ks, s =>
    match exec (.extract f k) s with
    | .next t => (extractAll f ks t).map fun p => (t.result.toNat :: p.1, p.2)
    | _ => none

/-- Run APPEND f, k with ARG set to each slice in turn. -/
def appendAll (f : Nat) : List (Nat × Nat) → State → Option State
  | [], s => some s
  | (k, bits) :: ps, s =>
    match exec (.append f k) { s with arg := BitVec.ofNat 64 bits } with
    | .next t => appendAll f ps t
    | _ => none

/-- The error code R235's order gives the command word c in state s (R231's causes), 0 for none. -/
def codeFor (c : Word) (s : State) : Nat :=
  let op := bitsOf c 24 8
  let f := bitsOf c 20 4
  let k := bitsOf c 12 8
  if bitsOf c 32 32 ≠ 0 ∨ op ∉ opValues ∨ bitsOf c 0 12 ≠ 0 ∨ (op ∉ opsWithF ∧ f ≠ 0) ∨ (op ∉ opsWithImm ∧ k ≠ 0) then 1
  else if op ∈ opsWithF ∧ 7 < f then 2
  else if op ∈ [0x01, 0x11, 0x12] ∧ 64 < k then 3
  else if op = 0x20 ∧ 31 < k then 3
  else if op = 0x12 ∧ 2 ^ k ≤ s.arg.toNat then 3
  else if op ∈ [0x11, 0x12] ∧ (∃ g : Fin 8, g.val = f ∧ (s.field g).rem.toNat < k) then 4
  else if op ∈ [0x31, 0x32] ∧ s.tlen.toNat ≠ expected s then 5
  else 0

end Sys2Proof.Claims

open Sys2Proof Sys2Proof.Machine Sys2Proof.Claims

/-! ## Encoding -/

/-- R99, R95: the decoder inverts the encoder on every command whose operands fit. -/
def Obligations.DecodeInvertsEncode : Prop := ∀ i : Instr, i.WellFormed → decode (encode i) = .ok i

/-- R90, R95: a word that decodes is the encoding of what it decodes to, so no two words name one command. -/
def Obligations.EncodeInvertsDecode : Prop := ∀ (c : Word) (i : Instr), decode c = .ok i → i.WellFormed ∧ encode i = c

/-- R93: a word is legal for a row of the table iff UPPER is 0 and its masked low half is the row's match. -/
def Obligations.OpcodeTableDecides : Prop :=
  ∀ r ∈ [(Opcode.nop, 0x00000000, 0xFFFFFFFF), (Opcode.mask, 0x01000000, 0xFFF00FFF),
      (Opcode.hasbits, 0x10000000, 0xFF000FFF), (Opcode.extract, 0x11000000, 0xFF000FFF),
      (Opcode.append, 0x12000000, 0xFF000FFF), (Opcode.frestore, 0x13000000, 0xFF0FFFFF),
      (Opcode.fclear, 0x14000000, 0xFF0FFFFF), (Opcode.symout, 0x20000000, 0xFFF00FFF),
      (Opcode.symin, 0x21000000, 0xFFF00FFF), (Opcode.encode, 0x30000000, 0xFFFFFFFF),
      (Opcode.checklen, 0x31000000, 0xFFFFFFFF), (Opcode.decode, 0x32000000, 0xFFFFFFFF),
      (Opcode.clrstat, 0x3F000000, 0xFFFFFFFF)],
    ∀ c : Word, (∃ i, decode c = .ok i ∧ i.opcode = r.1) ↔ (c.toNat < 2 ^ 32 ∧ c.toNat &&& r.2.2 = r.2.1)

/-- R96: exactly the words R96 lists raise E_ILLEGAL; every other word decodes and runs its command; 243 of the 256 OP
values are unassigned. -/
def Obligations.IllegalWordsRaiseIllegal : Prop :=
  (∀ c : Word, IllegalBits c → RaisesIllegal c) ∧
  (∀ c : Word, ¬ IllegalBits c → ∃ i, decode c = .ok i ∧ ∀ s, runCommand c s = exec i s) ∧
  ((List.range 256).filter fun op => op ∉ opValues).length = 243

/-- R91: the operands of a decoded command are the zero-extended fields F and IMM, for the commands that use them. -/
def Obligations.OperandsAreTheirFields : Prop :=
  ∀ (c : Word) (i : Instr), decode c = .ok i →
    i.opcode.byte.toNat = bitsOf c 24 8 ∧ i.fOperand = bitsOf c 20 4 ∧ i.immOperand = bitsOf c 12 8

/-- R101: the spec's example word of each command decodes to it, and it encodes to the word. -/
def Obligations.ExampleWordsDecode : Prop :=
  ∀ p ∈ ([(0x0000_0000, .nop), (0x0104_0000, .mask 64), (0x1020_5000, .hasbits 2 5), (0x1120_5000, .extract 2 5),
      (0x1230_6000, .append 3 6), (0x1340_0000, .frestore 4), (0x1410_0000, .fclear 1), (0x2001_F000, .symout 31),
      (0x2106_1000, .symin 0x61), (0x3000_0000, .encode), (0x3100_0000, .checklen), (0x3200_0000, .decode),
      (0x3F00_0000, .clrstat)] : List (Word × Instr)),
    decode p.1 = .ok p.2 ∧ encode p.2 = p.1

/-- R94: F = 8 to 15 is a legal encoding of the five field commands, and running it raises E_FIELD (code 2). -/
def Obligations.HighFieldIndexRaisesField : Prop :=
  ∀ f k : Nat, 8 ≤ f → f < 16 → k < 256 →
    (decode (wordOf 0x10 f k) = .ok (.hasbits f k) ∧ ∀ s, exec (.hasbits f k) s = .next (failedWith 2 s)) ∧
    (decode (wordOf 0x11 f k) = .ok (.extract f k) ∧ ∀ s, exec (.extract f k) s = .next (failedWith 2 s)) ∧
    (decode (wordOf 0x12 f k) = .ok (.append f k) ∧ ∀ s, exec (.append f k) s = .next (failedWith 2 s)) ∧
    (decode (wordOf 0x13 f 0) = .ok (.frestore f) ∧ ∀ s, exec (.frestore f) s = .next (failedWith 2 s)) ∧
    (decode (wordOf 0x14 f 0) = .ok (.fclear f) ∧ ∀ s, exec (.fclear f) s = .next (failedWith 2 s))

/-! ## Steps and the port -/

/-- R21: a CMD write runs the command its value encodes, and completes with it; a CMD read returns 0. -/
def Obligations.CmdWriteRunsItsCommand : Prop :=
  (∀ (s : State) (c : Word) (rest : List PortInput) (i : Instr), s.inputs = .regWrite 0x008 c :: rest →
    decode c = .ok i → step s = exec i (serving s rest)) ∧
  (∀ (s : State) (c : Word) (rest : List PortInput), s.inputs = .regWrite 0x008 c :: rest →
    (∀ i, decode c ≠ .ok i) → step s = .next (failedWith 1 (serving s rest))) ∧
  ReadsAs 0x008 (fun _ => 0)

/-- The command word placed by withFetchWord is what the next step runs, with the queue as it was. That a program is a
queue of CMD writes is the model's choice (notes/assumptions/5.md). -/
def Obligations.FetchWordRunsNext : Prop :=
  ∀ (s : State) (w : Nat) (i : Instr), w < 2 ^ 32 → decodeTableWord 32 w = some i →
    step (s.withFetchWord 32 w) = exec i { s with response := none }

/-- R63, R64: which accesses end in a bus error; every other access completes. The last clause is the model's choice
(notes/assumptions/4.md, DEDUCED from R65): `afterBusError` leaves only the refused access gone. -/
def Obligations.RefusedAccessesAreBusErrors : Prop :=
  (∀ (s : State) (off : Offset) (rest : List PortInput), s.inputs = .regRead off :: rest →
    if off.toNat % 8 ≠ 0 ∨ 0x100 ≤ off.toNat ∨ (0x058 ≤ off.toNat ∧ off.toNat < 0x080) then step s = .fault .busError
    else ∃ t, step s = .next t) ∧
  (∀ (s : State) (off : Offset) (v : Word) (rest : List PortInput), s.inputs = .regWrite off v :: rest →
    if off.toNat % 8 ≠ 0 ∨ 0x100 ≤ off.toNat ∨ (0x058 ≤ off.toNat ∧ off.toNat < 0x080) then step s = .fault .busError
    else ∃ t, step s = .next t) ∧
  (∀ (s : State) (off : Offset) (rest : List PortInput), s.inputs = .tokRead off :: rest →
    if off.toNat < 0x100 ∨ 0x180 ≤ off.toNat then step s = .fault .busError else ∃ t, step s = .next t) ∧
  (∀ (s : State) (off : Offset) (b : Byte) (rest : List PortInput), s.inputs = .tokWrite off b :: rest →
    if off.toNat < 0x100 ∨ 0x180 ≤ off.toNat then step s = .fault .busError else ∃ t, step s = .next t) ∧
  (∀ (s : State) (a : PortInput) (rest : List PortInput), s.inputs = a :: rest → s.afterBusError = serving s rest)

/-- R66: a read changes nothing but the returned value. -/
def Obligations.ReadsHaveNoSideEffects : Prop :=
  ∀ (s t : State) (off : Offset) (rest : List PortInput),
    (s.inputs = .regRead off :: rest ∨ s.inputs = .tokRead off :: rest) → step s = .next t →
    t = { s with inputs := rest, response := t.response } ∧ t.response.isSome = true

/-- R67: a write to a read-only register completes and changes nothing; FCTRL's RO bits are ignored; CMD reads 0. -/
def Obligations.ReadOnlyWritesAreIgnored : Prop :=
  (∀ off ∈ ([0x000, 0x010, 0x020, 0x038, 0x040, 0x048, 0x050] : List Offset), ∀ v : Word, WritesAs off v id) ∧
  (∀ (f : Fin 8) (v v' : Word) (s s' : State) (rest : List PortInput), bitsOf v 0 7 = bitsOf v' 0 7 →
    s.inputs = .regWrite (BitVec.ofNat 12 (0x088 + 16 * f.val)) v :: rest →
    s' = { s with inputs := .regWrite (BitVec.ofNat 12 (0x088 + 16 * f.val)) v' :: rest } → step s = step s') ∧
  ReadsAs 0x008 (fun _ => 0)

/-! ## Registers -/

/-- R22: ID reads as its constant, made of MAGIC, REV, NFIELDS and TOKBYTES; writes are ignored. -/
def Obligations.IdRegisterIsConstant : Prop :=
  ReadsAs 0x000 (fun _ => 0x0080_0801_4253_4D45) ∧ (∀ v, WritesAs 0x000 v id) ∧
  bitsOf 0x0080_0801_4253_4D45 0 8 = 0x45 ∧ bitsOf 0x0080_0801_4253_4D45 0 32 = 0x42534D45 ∧ bitsOf 0x0080_0801_4253_4D45 32 8 = 1 ∧
  bitsOf 0x0080_0801_4253_4D45 40 8 = 8 ∧ bitsOf 0x0080_0801_4253_4D45 48 16 = 128

/-- R23: STATUS's read value, its writers, what each bit records, and ERR and ECODE's relation. -/
def Obligations.StatusRegisterReports : Prop :=
  ReadsAs 0x010 (fun s => BitVec.ofNat 64
    (s.status.hb.toNat + 2 * s.status.err.toNat + 4 * s.status.sticky.toNat + 16 * s.status.ecode.toNat)) ∧
  (∀ v, WritesAs 0x010 v id) ∧
  OnlyWrittenBy (fun i => i = .clrstat ∨ ∃ f k, i = .hasbits f k) (fun s => s.status.hb) ∧
  (∀ (f : Fin 8) (k : Nat) (s t : State), exec (.hasbits f k) s = .next t →
    t.status.hb = decide ((s.field f).rem.toNat ≥ k)) ∧
  (∀ c s t, runCommand c s = .next t → t.status.ecode.toNat ≤ 5 ∧ (t.status.err = true ↔ t.status.ecode ≠ 0)) ∧
  (∀ c s t, runCommand c s = .next t → c ≠ wordOf 0x3F 0 0 → t.status.sticky = (s.status.sticky || t.status.err)) ∧
  (∀ s t, exec .clrstat s = .next t → t.status.hb = false ∧ t.status.sticky = false) ∧
  KeptByAccesses (fun s => s.status) ∧
  State.reset.status = { hb := false, err := false, sticky := false, ecode := 0 }

/-- R36: no command reads STATUS: what it held before a command changes nothing else the command does, nor the ERR,
ECODE and HB the command itself writes. -/
def Obligations.NoCommandReadsStatus : Prop :=
  ∀ (i : Instr) (s : State) (st : Status), ∃ t u, exec i s = .next t ∧ exec i { s with status := st } = .next u ∧
    { u with status := t.status } = t ∧ u.status.err = t.status.err ∧ u.status.ecode = t.status.ecode ∧
    (i.opcode ∈ [.hasbits, .clrstat] → t.status.err = false → u.status.hb = t.status.hb)

/-- R24: ARG. -/
def Obligations.ArgRegisterHoldsItsWrite : Prop :=
  (∀ v, WritesAs 0x018 v fun s => { s with arg := v }) ∧ ReadsAs 0x018 (fun s => s.arg) ∧
  OnlyWrittenBy (fun _ => False) (fun s => s.arg) ∧ State.reset.arg = 0

/-- R26: FVALUE[f] reads and writes VALUE[f] raw; WIDTH, REM and every other field stay; four commands write VALUE. -/
def Obligations.FieldValueRegisterIsRaw : Prop :=
  (∀ f : Fin 8, ReadsAs (BitVec.ofNat 12 (0x080 + 16 * f.val)) (fun s => (s.field f).value)) ∧
  (∀ (f : Fin 8) (v : Word), WritesAs (BitVec.ofNat 12 (0x080 + 16 * f.val)) v fun s =>
    withFieldSet s f { value := v, width := (s.field f).width, rem := (s.field f).rem }) ∧
  (∀ f : Fin 8, OnlyWrittenBy (fun i => (∃ g k, i = .extract g k) ∨ (∃ g k, i = .append g k) ∨ (∃ g, i = .fclear g) ∨
    i = .decode) (fun s => (s.field f).value)) ∧
  ∀ f : Fin 8, (State.reset.field f).value = 0

/-- R27: FCTRL[f] reads WIDTH | REM << 8; a write of a width up to 64 sets both, any other is ignored; no command
writes WIDTH, and six commands write REM. -/
def Obligations.FieldControlRegisterSetsWidth : Prop :=
  (∀ f : Fin 8, ReadsAs (BitVec.ofNat 12 (0x088 + 16 * f.val)) (fun s =>
    BitVec.ofNat 64 ((s.field f).width.toNat + 256 * (s.field f).rem.toNat))) ∧
  (∀ (f : Fin 8) (v : Word), WritesAs (BitVec.ofNat 12 (0x088 + 16 * f.val)) v fun s =>
    if v.toNat % 128 ≤ 64 then
      withFieldSet s f
        { value := (s.field f).value, width := BitVec.ofNat 7 (v.toNat % 128), rem := BitVec.ofNat 7 (v.toNat % 128) }
    else s) ∧
  (∀ f : Fin 8, OnlyWrittenBy (fun _ => False) (fun s => (s.field f).width)) ∧
  (∀ f : Fin 8, OnlyWrittenBy (fun i => (∃ g k, i = .extract g k) ∨ (∃ g k, i = .append g k) ∨ (∃ g, i = .frestore g) ∨
    (∃ g, i = .fclear g) ∨ i = .encode ∨ i = .decode) (fun s => (s.field f).rem))

/-- R29: FCOUNT takes 0 to 8 and ignores the rest; no command writes it; it resets to 5. -/
def Obligations.FieldCountRegisterIsLegal : Prop :=
  ReadsAs 0x028 (fun s => BitVec.ofNat 64 s.fcount.toNat) ∧
  (∀ v : Word, WritesAs 0x028 v fun s => if v.toNat ≤ 8 then { s with fcount := BitVec.ofNat 4 v.toNat } else s) ∧
  OnlyWrittenBy (fun _ => False) (fun s => s.fcount) ∧ State.reset.fcount = 5

/-- R30, R31: TBITS and EXPLEN read T and ceil5(T), within 512 and 103 when the widths are legal; writes are ignored;
145 and 29 after reset. -/
def Obligations.TotalsRegistersAreComputed : Prop :=
  ReadsAs 0x038 (fun s => BitVec.ofNat 64 (tbits s)) ∧ ReadsAs 0x040 (fun s => BitVec.ofNat 64 (expected s)) ∧
  (∀ s, LegalWidths s → tbits s ≤ 512 ∧ expected s ≤ 103) ∧
  (∀ v, WritesAs 0x038 v id) ∧ (∀ v, WritesAs 0x040 v id) ∧ tbits State.reset = 145 ∧ expected State.reset = 29

/-- R32: RESULT is read-only to the host and written only by MASK, EXTRACT, SYMOUT and SYMIN, and only on success. -/
def Obligations.ResultRegisterWriters : Prop :=
  ReadsAs 0x020 (fun s => s.result) ∧ (∀ v, WritesAs 0x020 v id) ∧
  OnlyWrittenBy (fun i => (∃ k, i = .mask k) ∨ (∃ f k, i = .extract f k) ∨ (∃ v, i = .symout v) ∨ ∃ b, i = .symin b)
    (fun s => s.result) ∧
  (∀ c s t, runCommand c s = .next t → t.status.err = true → t.result = s.result) ∧
  KeptByAccesses (fun s => s.result) ∧ State.reset.result = 0

/-- R33: a TLEN write saturates at 0xFFFF, which never equals a legal EXPLEN; of the commands only ENCODE writes it. -/
def Obligations.TokenLengthRegisterSaturates : Prop :=
  ReadsAs 0x030 (fun s => BitVec.ofNat 64 s.tlen.toNat) ∧
  (∀ v : Word, WritesAs 0x030 v fun s => { s with tlen := BitVec.ofNat 16 (min v.toNat 0xFFFF) }) ∧
  (∀ s, LegalWidths s → expected s ≠ 0xFFFF) ∧
  (∀ s t, exec .encode s = .next t → t.tlen = BitVec.ofNat 16 (expected s)) ∧
  OnlyWrittenBy (fun i => i = .encode) (fun s => s.tlen) ∧ State.reset.tlen = 0

/-- R34: LENOBS and LENEXP carry the counts of an E_LENGTH, are zeroed by CLRSTAT and changed by nothing else. -/
def Obligations.LengthCountRegisters : Prop :=
  ReadsAs 0x048 (fun s => BitVec.ofNat 64 s.lenobs.toNat) ∧ ReadsAs 0x050 (fun s => BitVec.ofNat 64 s.lenexp.toNat) ∧
  (∀ v, WritesAs 0x048 v id) ∧ (∀ v, WritesAs 0x050 v id) ∧
  (∀ c s t, runCommand c s = .next t → c ≠ wordOf 0x3F 0 0 →
    if t.status.ecode = 5 then t.lenobs = s.tlen ∧ t.lenexp = BitVec.ofNat 8 (expected s)
    else t.lenobs = s.lenobs ∧ t.lenexp = s.lenexp) ∧
  (∀ s t, exec .clrstat s = .next t → t.lenobs = 0 ∧ t.lenexp = 0) ∧
  KeptByAccesses (fun s => (s.lenobs, s.lenexp)) ∧
  State.reset.lenobs = 0 ∧ State.reset.lenexp = 0

/-- R62: TokRead(0x100 + i) returns TOKEN[i]; TokWrite(0x100 + i, b) makes TOKEN[i] b and changes no other byte and
nothing else; no command but ENCODE writes the buffer and no command but DECODE reads it. -/
def Obligations.TokenBytesAreStorage : Prop :=
  (∀ (i : Fin 128) (s : State) (rest : List PortInput), s.inputs = .tokRead (BitVec.ofNat 12 (0x100 + i.val)) :: rest →
    step s = .next { s with inputs := rest, response := some (.tok (s.token.read i.val)) }) ∧
  (∀ (i : Fin 128) (b : Byte) (s : State) (rest : List PortInput), s.token.wf = true →
    s.inputs = .tokWrite (BitVec.ofNat 12 (0x100 + i.val)) b :: rest →
    ∃ m, step s = .next { serving s rest with token := m } ∧
      ∀ j, m.read j = if j = i.val then b else s.token.read j) ∧
  OnlyWrittenBy (fun i => i = .encode) (fun s => s.token) ∧
  ∀ i, i ≠ .decode → ∀ s t m, exec i s = .next t →
    ∃ t', exec i { s with token := m } = .next t' ∧ SameButToken t t'

/-! ## Reset and the invariant -/

/-- R260, R28: a reset input brings every piece of the BSME's state to its reset value, from every state. That reset is
an input of the queue is the model's choice (notes/assumptions/6.md). -/
def Obligations.ResetRestoresEverything : Prop :=
  ∀ (s : State) (rest : List PortInput), s.inputs = .reset :: rest → ∃ t, step s = .next t ∧
    (∀ f : Fin 8, (t.field f).value = 0) ∧
    ((List.finRange 8).map fun f => (t.field f).width.toNat) = [10, 1, 64, 6, 64, 0, 0, 0] ∧
    (∀ f : Fin 8, (t.field f).rem = (t.field f).width) ∧
    t.fcount = 5 ∧ t.arg = 0 ∧ t.result = 0 ∧ t.status = { hb := false, err := false, sticky := false, ecode := 0 } ∧
    t.tlen = 0 ∧ t.lenobs = 0 ∧ t.lenexp = 0 ∧ (∀ j, t.token.read j = 0) ∧ tbits t = 145 ∧ expected t = 29

/-- The invariant holds after reset. -/
def Obligations.InvHoldsAtReset : Prop := State.reset.Inv

/-- Every step keeps the invariant: R40's bounds, R23's relations, the recorded counts, and the model's canonical token
buffer (notes/assumptions/9.md). -/
def Obligations.StepKeepsInv : Prop := ∀ s t : State, s.Inv → step s = .next t → t.Inv

/-- R40: at every point a host can observe, 0 ≤ REM[f] ≤ WIDTH[f] ≤ 64 and FCOUNT ≤ 8. -/
def Obligations.ObservableStatesKeepBounds : Prop :=
  ∀ s : State, Reachable s →
    (∀ f : Fin 8, (s.field f).rem.toNat ≤ (s.field f).width.toNat ∧ (s.field f).width.toNat ≤ 64) ∧ s.fcount.toNat ≤ 8

/-- R41: what each command can write and what each host access can write; a state not named is kept. -/
def Obligations.WhoWritesWhat : Prop :=
  (∀ (i : Instr) (s t : State), exec i s = .next t →
    (∀ f : Fin 8, (t.field f).value ≠ (s.field f).value → i.opcode ∈ [.extract, .append, .fclear, .decode]) ∧
    (∀ f : Fin 8, (t.field f).width = (s.field f).width) ∧
    (∀ f : Fin 8, (t.field f).rem ≠ (s.field f).rem →
      i.opcode ∈ [.extract, .append, .frestore, .fclear, .encode, .decode]) ∧
    t.fcount = s.fcount ∧ t.arg = s.arg ∧
    (t.result ≠ s.result → i.opcode ∈ [.mask, .extract, .symout, .symin]) ∧
    (t.status.hb ≠ s.status.hb → i.opcode ∈ [.hasbits, .clrstat]) ∧
    (t.status.sticky ≠ s.status.sticky → t.status.err = true ∨ i.opcode = .clrstat) ∧
    (t.tlen ≠ s.tlen → i.opcode = .encode) ∧
    (t.lenobs ≠ s.lenobs ∨ t.lenexp ≠ s.lenexp →
      (i.opcode ∈ [.checklen, .decode] ∧ t.status.ecode = 5) ∨ i.opcode = .clrstat) ∧
    (t.token ≠ s.token → i.opcode = .encode)) ∧
  ∀ (s t : State) (a : PortInput) (rest : List PortInput), s.token.wf = true → s.inputs = a :: rest →
    (∀ c, a ≠ .regWrite 0x008 c) → a ≠ .reset → step s = .next t →
    (∀ f : Fin 8, (t.field f).value ≠ (s.field f).value → ∃ v, a = .regWrite (BitVec.ofNat 12 (0x080 + 16 * f.val)) v) ∧
    (∀ f : Fin 8, (t.field f).width ≠ (s.field f).width ∨ (t.field f).rem ≠ (s.field f).rem →
      (∃ v, a = .regWrite (BitVec.ofNat 12 (0x088 + 16 * f.val)) v) ∧ (t.field f).rem = (t.field f).width) ∧
    (t.fcount ≠ s.fcount → ∃ v, a = .regWrite 0x028 v) ∧ (t.arg ≠ s.arg → ∃ v, a = .regWrite 0x018 v) ∧
    t.result = s.result ∧ t.status = s.status ∧ (t.tlen ≠ s.tlen → ∃ v, a = .regWrite 0x030 v) ∧
    t.lenobs = s.lenobs ∧ t.lenexp = s.lenexp ∧
    ∀ j, t.token.read j ≠ s.token.read j → ∃ b, a = .tokWrite (BitVec.ofNat 12 (0x100 + j)) b

/-! ## Commands -/

/-- R220: NOP reports success and changes nothing else; its only word is 0. -/
def Obligations.NopOnlyReportsSuccess : Prop :=
  decode 0 = .ok .nop ∧ (∀ s, exec .nop s = .next (succeeded s)) ∧
  ∀ c : Word, bitsOf c 24 8 = 0x00 → c ≠ 0 → RaisesIllegal c

/-- R221: CLRSTAT clears every STATUS bit, LENOBS and LENEXP, and changes nothing else. -/
def Obligations.ClrstatClearsStatus : Prop :=
  decode (wordOf 0x3F 0 0) = .ok .clrstat ∧
  (∀ s, exec .clrstat s = .next
    { s with status := { hb := false, err := false, sticky := false, ecode := 0 }, lenobs := 0, lenexp := 0 }) ∧
  ∀ c : Word, bitsOf c 24 8 = 0x3F → c ≠ wordOf 0x3F 0 0 → RaisesIllegal c

/-- R121: MASK k loads 2^k − 1 into RESULT; k > 64 raises E_OPERAND (code 3). -/
def Obligations.MaskLoadsAllOnes : Prop :=
  (∀ k, k < 256 → decode (wordOf 0x01 0 k) = .ok (.mask k)) ∧
  (∀ k s, k ≤ 64 → exec (.mask k) s = .next (succeeded { s with result := BitVec.ofNat 64 (2 ^ k - 1) })) ∧
  (∀ k s, 64 < k → exec (.mask k) s = .next (failedWith 3 s)) ∧
  ∀ c : Word, bitsOf c 24 8 = 0x01 → bitsOf c 20 4 ≠ 0 ∨ bitsOf c 0 12 ≠ 0 ∨ bitsOf c 32 32 ≠ 0 → RaisesIllegal c

/-- R120, R122: the mask primitive and its laws. -/
def Obligations.MaskLaws : Prop :=
  (∀ n, n ≤ 64 → mask n = 2 ^ n - 1 ∧ ∀ b, (mask n).testBit b = decide (b < n)) ∧
  (∀ v n, n ≤ 64 → v &&& mask n = v % 2 ^ n) ∧ (∀ n m, n ≤ 64 → m ≤ n → mask n >>> m = mask (n - m)) ∧
  ∀ n, n ≤ 64 → mask n < 2 ^ n

/-- R132: HASBITS sets HB iff REM[f] ≥ k, for every k; F > 7 raises E_FIELD. -/
def Obligations.HasbitsTestsRemaining : Prop :=
  (∀ f k, f < 16 → k < 256 → decode (wordOf 0x10 f k) = .ok (.hasbits f k)) ∧
  (∀ (f : Fin 8) (k : Nat) (s : State), exec (.hasbits f k) s = .next
    { s with status := { hb := decide ((s.field f).rem.toNat ≥ k), err := false, sticky := s.status.sticky, ecode := 0 } }) ∧
  (∀ f k s, 7 < f → exec (.hasbits f k) s = .next (failedWith 2 s)) ∧
  ∀ c : Word, bitsOf c 24 8 = 0x10 → bitsOf c 0 12 ≠ 0 ∨ bitsOf c 32 32 ≠ 0 → RaisesIllegal c

/-- R135: EXTRACT removes the top k of field f's remaining bits and returns them in RESULT, or raises its error. -/
def Obligations.ExtractTakesTopBits : Prop :=
  (∀ f k, f < 16 → k < 256 → decode (wordOf 0x11 f k) = .ok (.extract f k)) ∧
  (∀ (f : Fin 8) (k : Nat) (s : State), k ≤ 64 → k ≤ (s.field f).rem.toNat → exec (.extract f k) s = .next
    (succeeded { withFieldSet s f
        { value := BitVec.ofNat 64 ((s.field f).value.toNat % 2 ^ ((s.field f).rem.toNat - k))
          width := (s.field f).width
          rem := BitVec.ofNat 7 ((s.field f).rem.toNat - k) } with
      result := BitVec.ofNat 64 ((s.field f).value.toNat / 2 ^ ((s.field f).rem.toNat - k) % 2 ^ k) })) ∧
  (∀ f k s, 7 < f → exec (.extract f k) s = .next (failedWith 2 s)) ∧
  (∀ (f : Fin 8) (k : Nat) (s : State), 64 < k → exec (.extract f k) s = .next (failedWith 3 s)) ∧
  (∀ (f : Fin 8) (k : Nat) (s : State), k ≤ 64 → (s.field f).rem.toNat < k →
    exec (.extract f k) s = .next (failedWith 4 s)) ∧
  ∀ c : Word, bitsOf c 24 8 = 0x11 → bitsOf c 0 12 ≠ 0 ∨ bitsOf c 32 32 ≠ 0 → RaisesIllegal c

/-- R140: APPEND shifts the k-bit value in ARG into the back of field f, or raises its error; after FCLEAR no bit is
ever lost. -/
def Obligations.AppendShiftsBitsIn : Prop :=
  (∀ f k, f < 16 → k < 256 → decode (wordOf 0x12 f k) = .ok (.append f k)) ∧
  (∀ (f : Fin 8) (k : Nat) (s : State), k ≤ 64 → s.arg.toNat < 2 ^ k → k ≤ (s.field f).rem.toNat →
    exec (.append f k) s = .next (succeeded (withFieldSet s f
      { value := BitVec.ofNat 64 ((s.field f).value.toNat * 2 ^ k + s.arg.toNat)
        width := (s.field f).width
        rem := BitVec.ofNat 7 ((s.field f).rem.toNat - k) }))) ∧
  (∀ f k s, 7 < f → exec (.append f k) s = .next (failedWith 2 s)) ∧
  (∀ (f : Fin 8) (k : Nat) (s : State), 64 < k ∨ 2 ^ k ≤ s.arg.toNat → exec (.append f k) s = .next (failedWith 3 s)) ∧
  (∀ (f : Fin 8) (k : Nat) (s : State), k ≤ 64 → s.arg.toNat < 2 ^ k → (s.field f).rem.toNat < k →
    exec (.append f k) s = .next (failedWith 4 s)) ∧
  (∀ (f : Fin 8) (k : Nat) (s t : State), exec (.append f k) s = .next t → t.status.err = false →
    (s.field f).rem.toNat ≤ (s.field f).width.toNat → (s.field f).width.toNat ≤ 64 →
    (s.field f).value.toNat < 2 ^ ((s.field f).width.toNat - (s.field f).rem.toNat) →
    (t.field f).value.toNat = (s.field f).value.toNat * 2 ^ k + s.arg.toNat ∧
    (t.field f).value.toNat < 2 ^ ((t.field f).width.toNat - (t.field f).rem.toNat)) ∧
  ∀ c : Word, bitsOf c 24 8 = 0x12 → bitsOf c 0 12 ≠ 0 ∨ bitsOf c 32 32 ≠ 0 → RaisesIllegal c

/-- R145: FRESTORE sets REM[f] to WIDTH[f] and keeps the value. -/
def Obligations.FrestoreResetsRemaining : Prop :=
  (∀ f, f < 16 → decode (wordOf 0x13 f 0) = .ok (.frestore f)) ∧
  (∀ (f : Fin 8) (s : State), exec (.frestore f) s = .next (succeeded (withFieldSet s f
    { value := (s.field f).value, width := (s.field f).width, rem := (s.field f).width }))) ∧
  (∀ f s, 7 < f → exec (.frestore f) s = .next (failedWith 2 s)) ∧
  ∀ c : Word, bitsOf c 24 8 = 0x13 → bitsOf c 12 8 ≠ 0 ∨ bitsOf c 0 12 ≠ 0 ∨ bitsOf c 32 32 ≠ 0 → RaisesIllegal c

/-- R146: FCLEAR sets VALUE[f] to 0 and REM[f] to WIDTH[f]. -/
def Obligations.FclearPreparesInsertion : Prop :=
  (∀ f, f < 16 → decode (wordOf 0x14 f 0) = .ok (.fclear f)) ∧
  (∀ (f : Fin 8) (s : State), exec (.fclear f) s = .next (succeeded (withFieldSet s f
    { value := 0, width := (s.field f).width, rem := (s.field f).width }))) ∧
  (∀ f s, 7 < f → exec (.fclear f) s = .next (failedWith 2 s)) ∧
  ∀ c : Word, bitsOf c 24 8 = 0x14 → bitsOf c 12 8 ≠ 0 ∨ bitsOf c 0 12 ≠ 0 ∨ bitsOf c 32 32 ≠ 0 → RaisesIllegal c

/-- R162: SYMOUT looks up a symbol's byte; v > 31 raises E_OPERAND. The byte values are R160's ASCII column
(notes/assumptions/13.md). -/
def Obligations.SymoutLooksUpByte : Prop :=
  (∀ v, v < 256 → decode (wordOf 0x20 0 v) = .ok (.symout v)) ∧
  (∀ v s, v ≤ 31 → exec (.symout v) s = .next (succeeded { s with result := BitVec.ofNat 64 (romByte v) })) ∧
  (∀ v s, 31 < v → exec (.symout v) s = .next (failedWith 3 s)) ∧
  ∀ c : Word, bitsOf c 24 8 = 0x20 → bitsOf c 20 4 ≠ 0 ∨ bitsOf c 0 12 ≠ 0 ∨ bitsOf c 32 32 ≠ 0 → RaisesIllegal c

/-- R163: SYMIN looks up any byte's value leniently. The byte values are R160's ASCII column (notes/assumptions/13.md). -/
def Obligations.SyminLooksUpValue : Prop :=
  (∀ b : Byte, decode (wordOf 0x21 0 b.toNat) = .ok (.symin b)) ∧
  (∀ (b : Byte) (s : State), exec (.symin b) s = .next
    (succeeded { s with result := BitVec.ofNat 64 (romValue b.toNat) })) ∧
  ∀ c : Word, bitsOf c 24 8 = 0x21 → bitsOf c 20 4 ≠ 0 ∨ bitsOf c 0 12 ≠ 0 ∨ bitsOf c 32 32 ≠ 0 → RaisesIllegal c

/-- R190: CHECKLEN succeeds iff TLEN = EXPLEN, and otherwise raises E_LENGTH with both counts. -/
def Obligations.ChecklenComparesLength : Prop :=
  decode (wordOf 0x31 0 0) = .ok .checklen ∧
  (∀ s, s.tlen.toNat = expected s → exec .checklen s = .next (succeeded s)) ∧
  (∀ s, s.tlen.toNat ≠ expected s → exec .checklen s = .next (lengthFailed s)) ∧
  ∀ c : Word, bitsOf c 24 8 = 0x31 → c ≠ wordOf 0x31 0 0 → RaisesIllegal c

/-- R183, R187, R182: ENCODE writes the bitstream's symbols to TOKEN[0..L−1] and L to TLEN, restores REM of the schema's
fields, and changes no other token byte, no value, no width and nothing else. -/
def Obligations.EncodeWritesTheBitstream : Prop :=
  decode (wordOf 0x30 0 0) = .ok .encode ∧
  (∀ s, s.token.wf = true → LegalWidths s → ∃ t, exec .encode s = .next t ∧
    t = succeeded { s with token := t.token, tlen := BitVec.ofNat 16 (expected s), fields := t.fields } ∧
    (∀ f : Fin 8, t.field f =
      { value := (s.field f).value, width := (s.field f).width,
        rem := if f.val < s.fcount.toNat then (s.field f).width else (s.field f).rem }) ∧
    (∀ j, j < expected s → (t.token.read j).toNat = romByte (∑ m : Fin 5, (dataBit s (5 * j + m)).toNat * 2 ^ (4 - m.val))) ∧
    ∀ j, expected s ≤ j → t.token.read j = s.token.read j) ∧
  ∀ c : Word, bitsOf c 24 8 = 0x30 → c ≠ wordOf 0x30 0 0 → RaisesIllegal c

/-- R184: TLEN = ceil5(T) after every ENCODE, and a CHECKLEN straight after it succeeds. -/
def Obligations.EncodeLengthIsExpected : Prop :=
  ∀ s : State, ∃ t, exec .encode s = .next t ∧ t.tlen.toNat = expected s ∧ exec .checklen t = .next (succeeded t)

/-- R185: when T mod 5 = p ≠ 0, every token byte is a symbol; the last symbol's bits 4 to 5 − p are the last p data bits
and its low 5 − p bits are 0; all five bits of every other symbol are data. -/
def Obligations.OnlyLastSymbolIsPadded : Prop :=
  ∀ s t : State, s.token.wf = true → LegalWidths s → exec .encode s = .next t → tbits s % 5 ≠ 0 →
    (∃ v, v < 32 ∧ (t.token.read (expected s - 1)).toNat = romByte v ∧ v % 2 ^ (5 - tbits s % 5) = 0 ∧
      ∀ m, m < tbits s % 5 →
        5 * (expected s - 1) + m < tbits s ∧ v.testBit (4 - m) = dataBit s (5 * (expected s - 1) + m)) ∧
    ∀ j, j < expected s - 1 → ∃ v, v < 32 ∧ (t.token.read j).toNat = romByte v ∧
      ∀ m, m < 5 → 5 * j + m < tbits s ∧ v.testBit (4 - m) = dataBit s (5 * j + m)

/-- R188: the token depends on VALUE[i] only through VALUE[i] & mask(WIDTH[i]). -/
def Obligations.EncodeTruncatesValues : Prop :=
  ∀ (s : State) (fs : Vector Field 8),
    (∀ f : Fin 8, f.val < s.fcount.toNat → fs[f.val].width = (s.field f).width ∧
      fs[f.val].value.toNat % 2 ^ (s.field f).width.toNat = (s.field f).value.toNat % 2 ^ (s.field f).width.toNat) →
    ∃ t u, exec .encode s = .next t ∧ exec .encode { s with fields := fs } = .next u ∧
      u.token = t.token ∧ u.tlen = t.tlen

/-- R191: DECODE checks the length, then unpacks the token's bits into fields 0 to FCOUNT−1, restores their REM, and
changes nothing else; on a wrong length it raises E_LENGTH. -/
def Obligations.DecodeReadsTheBitstream : Prop :=
  decode (wordOf 0x32 0 0) = .ok .decode ∧
  (∀ s, s.tlen.toNat ≠ expected s → exec .decode s = .next (lengthFailed s)) ∧
  (∀ s, s.tlen.toNat = expected s → ∃ t, exec .decode s = .next t ∧
    t = succeeded { s with fields := t.fields } ∧
    ∀ f : Fin 8, (t.field f).width = (s.field f).width ∧
      (s.fcount.toNat ≤ f.val → t.field f = s.field f) ∧
      (f.val < s.fcount.toNat → (t.field f).rem = (s.field f).width ∧
        ∀ b, (t.field f).value.toNat.testBit b =
          (decide (b < 64) && decide (b < (s.field f).width.toNat) &&
            tokenBit s (offsetAt s f + ((s.field f).width.toNat - 1 - b))))) ∧
  ∀ c : Word, bitsOf c 24 8 = 0x32 → c ≠ wordOf 0x32 0 0 → RaisesIllegal c

/-! ## Laws of the codec and the field commands -/

/-- R195, round trip: ENCODE then DECODE leaves VALUE[i] & mask(WIDTH[i]), if FCOUNT, the widths, TOKEN[0..TLEN−1] and
TLEN are not changed in between. -/
def Obligations.EncodeThenDecodeRoundTrip : Prop :=
  ∀ s : State, s.token.wf = true → LegalWidths s → ∃ t, exec .encode s = .next t ∧
    ∀ t' : State, t'.fcount = t.fcount → (∀ f : Fin 8, (t'.field f).width = (t.field f).width) → t'.tlen = t.tlen →
      (∀ j, j < t.tlen.toNat → t'.token.read j = t.token.read j) →
      ∃ u, exec .decode t' = .next u ∧ u.status.err = false ∧
        ∀ f : Fin 8, f.val < s.fcount.toNat →
          (u.field f).value.toNat = (s.field f).value.toNat % 2 ^ (s.field f).width.toNat

/-- R195, converse: DECODE then ENCODE rewrites a token of the expected length into its canonical form, and reproduces
it exactly iff all its bytes are alphabet bytes and its pad bits are 0. -/
def Obligations.DecodeThenEncodeIsCanonical : Prop :=
  ∀ s : State, s.token.wf = true → LegalWidths s → s.tlen.toNat = expected s →
    ∃ t u, exec .decode s = .next t ∧ exec .encode t = .next u ∧ u.tlen = s.tlen ∧
      (∀ j, j < expected s → (u.token.read j).toNat = romByte
        (if 5 * j + 5 ≤ tbits s then romValue (s.token.read j).toNat
         else romValue (s.token.read j).toNat / 2 ^ (5 - tbits s % 5) * 2 ^ (5 - tbits s % 5))) ∧
      ((∀ j, j < expected s → u.token.read j = s.token.read j) ↔
        (∀ j, j < expected s → ∃ v, v < 32 ∧ (s.token.read j).toNat = romByte v) ∧
        (tbits s % 5 ≠ 0 → romValue (s.token.read (expected s - 1)).toNat % 2 ^ (5 - tbits s % 5) = 0))

/-- R164, R193: for DECODE, replacing a token byte by one outside the alphabet is replacing it by 'a'. -/
def Obligations.UnknownByteDecodesAsA : Prop :=
  ∀ (s : State) (j : Nat) (b : Byte), s.token.wf = true → j < 128 → (∀ v, v < 32 → b.toNat ≠ romByte v) →
    ∃ t u, exec .decode { s with token := s.token.write j b } = .next t ∧
      exec .decode { s with token := s.token.write j 0x61 } = .next u ∧ SameButToken t u

/-- R194: tokens that differ only in the pad bits of the last symbol decode alike. -/
def Obligations.PadBitsAreIgnored : Prop :=
  ∀ (s : State) (m : Memory), s.tlen.toNat = expected s → tbits s % 5 ≠ 0 →
    (∀ j, j < expected s - 1 → m.read j = s.token.read j) →
    romValue (m.read (expected s - 1)).toNat / 2 ^ (5 - tbits s % 5) =
      romValue (s.token.read (expected s - 1)).toNat / 2 ^ (5 - tbits s % 5) →
    ∃ t u, exec .decode s = .next t ∧ exec .decode { s with token := m } = .next u ∧ SameButToken t u

/-- R192, R70: DECODE's result depends on no token byte at or beyond TLEN, and on no token byte at all on E_LENGTH. -/
def Obligations.DecodeReadsOnlyItsToken : Prop :=
  ∀ (s : State) (m : Memory),
    (s.tlen.toNat = expected s → ∀ j, j < s.tlen.toNat → m.read j = s.token.read j) →
    ∃ t u, exec .decode s = .next t ∧ exec .decode { s with token := m } = .next u ∧ SameButToken t u

/-- R180: the codec reads no REM and no field from FCOUNT up, DECODE reads no VALUE, and no codec command writes a field
from FCOUNT up. -/
def Obligations.CodecReadsOnlyTheSchema : Prop :=
  ∀ (s : State) (fs : Vector Field 8) (i : Instr), i ∈ [Instr.encode, Instr.checklen, Instr.decode] →
    (∀ f : Fin 8, f.val < s.fcount.toNat → fs[f.val].width = (s.field f).width) →
    (i = .encode → ∀ f : Fin 8, f.val < s.fcount.toNat → fs[f.val].value = (s.field f).value) →
    ∃ t u, exec i s = .next t ∧ exec i { s with fields := fs } = .next u ∧
      { u with fields := t.fields } = t ∧
      (t.status.err = false → i ≠ .checklen →
        ∀ f : Fin 8, f.val < s.fcount.toNat → u.field f = t.field f) ∧
      ∀ f : Fin 8, s.fcount.toNat ≤ f.val → t.field f = s.field f ∧ u.field f = fs[f.val]

/-- R147 law 1: a sequence of EXTRACTs whose counts sum to at most REM returns consecutive slices, most significant
first, and leaves REM and VALUE reduced accordingly. -/
def Obligations.ExtractSequenceSlices : Prop :=
  ∀ (f : Fin 8) (ks : List Nat) (s : State), (s.field f).rem.toNat ≤ 64 → ks.sum ≤ (s.field f).rem.toNat → ks ≠ [] →
    ∃ u, extractAll f ks s = some
        (slicesOf ((s.field f).value.toNat % 2 ^ (s.field f).rem.toNat) (s.field f).rem.toNat ks, u) ∧
      (u.field f).rem.toNat = (s.field f).rem.toNat - ks.sum ∧
      (u.field f).value.toNat = (s.field f).value.toNat % 2 ^ ((s.field f).rem.toNat - ks.sum) ∧
      u.status.err = false

/-- R147 law 2: FCLEAR, then appending the slices of v in order, restores v & mask(w) and leaves REM 0. -/
def Obligations.AppendInvertsExtract : Prop :=
  ∀ (f : Fin 8) (ks : List Nat) (v : Nat) (s : State), (s.field f).width.toNat ≤ 64 →
    ks.sum = (s.field f).width.toNat →
    ∃ t u, exec (.fclear f) s = .next t ∧
      appendAll f (ks.zip (slicesOf v (s.field f).width.toNat ks)) t = some u ∧
      (u.field f).value.toNat = v % 2 ^ (s.field f).width.toNat ∧ (u.field f).rem.toNat = 0

/-! ## Errors -/

/-- R232, R233, R234: from every state every CMD write completes: either with ERR and ECODE 0, STICKY kept but by
CLRSTAT and HB kept but by HASBITS and CLRSTAT, or with nothing but the recording of one error. -/
def Obligations.CommandsEndPrecisely : Prop :=
  ∀ (c : Word) (s : State), ∃ t, runCommand c s = .next t ∧
    ((t.status.err = false ∧ t.status.ecode = 0 ∧
        (c ≠ wordOf 0x3F 0 0 → t.status.sticky = s.status.sticky ∧
          (bitsOf c 24 8 ≠ 0x10 → t.status.hb = s.status.hb))) ∨
      t = failedWith 1 s ∨ t = failedWith 2 s ∨ t = failedWith 3 s ∨ t = failedWith 4 s ∨ t = lengthFailed s)

/-- R235, R231: the error a CMD write records is the first in R235's order whose cause holds. -/
def Obligations.FirstErrorIsReported : Prop :=
  ∀ (c : Word) (s t : State), runCommand c s = .next t → t.status.ecode.toNat = codeFor c s

/-- No command ever faults or is refused: every command is legal in every state (R262) and no error is a fault (R268). -/
def Obligations.EveryCommandCompletes : Prop := ∀ (i : Instr) (s : State), ∃ t, exec i s = .next t

/-! ## Program statements -/

/-- R99, R100: CMD's statement, first in the queue, runs its command. -/
def Obligations.AssembledCommandRuns : Prop :=
  ∀ (i : Instr) (s : State) (rest : List PortInput), i.WellFormed →
    s.inputs = (Statement.cmd i).accesses ++ rest → step s = exec i (serving s rest)

/-- R100: LOADTOK of at most 128 bytes writes them to TOKEN from index 0 up and sets TLEN to their number, in that many
accesses plus one. -/
def Obligations.LoadtokLoadsTheToken : Prop :=
  ∀ (bytes : List Byte) (s : State) (rest : List PortInput), bytes.length ≤ 128 → s.token.wf = true →
    s.inputs = (Statement.loadtok bytes).accesses ++ rest →
    ∃ m, Host.Core.run core (bytes.length + 1) s = .next
        { serving s rest with token := m, tlen := BitVec.ofNat 16 bytes.length } ∧
      ∀ j, m.read j = if j < bytes.length then bytes.getD j 0 else s.token.read j
end

