-- ==== Sys2Proof/Laws/Memory.lean ====
section
/-! SUPPORT. The token buffer: reads after writes, the canonical form kept by every operation, and equal reads giving
equal buffers. -/

namespace Sys2Proof.Machine

/-- A canonical list reads blank below its first index. -/
theorem Memory.read_below {m : Memory} : ∀ {lo i : Nat}, Memory.wfFrom lo m = true → i < lo → m.read i = Memory.blank := by
  induction m with
  | nil => intros; rfl
  | cons c m ih =>
    obtain ⟨j, b⟩ := c
    intro lo i h hi
    simp only [Memory.wfFrom, Bool.and_eq_true, decide_eq_true_eq] at h
    have hne : i ≠ j := by omega
    simp only [Memory.read, hne, if_false]
    exact ih h.2 (by omega)

theorem Memory.wfFrom_mono {m : Memory} {lo lo' : Nat} (h : Memory.wfFrom lo m = true) (hl : lo' ≤ lo) :
    Memory.wfFrom lo' m = true := by
  cases m with
  | nil => rfl
  | cons c m =>
    obtain ⟨j, b⟩ := c
    simp only [Memory.wfFrom, Bool.and_eq_true, decide_eq_true_eq] at h ⊢
    exact ⟨⟨⟨by omega, h.1.1.2⟩, h.1.2⟩, h.2⟩

/-- Outside the buffer a canonical list reads blank. -/
theorem Memory.read_outside {m : Memory} : ∀ {lo i : Nat}, Memory.wfFrom lo m = true → Config.tokenBytes ≤ i →
    m.read i = Memory.blank := by
  induction m with
  | nil => intros; rfl
  | cons c m ih =>
    obtain ⟨j, b⟩ := c
    intro lo i h hi
    simp only [Memory.wfFrom, Bool.and_eq_true, decide_eq_true_eq] at h
    have hne : i ≠ j := by omega
    simp only [Memory.read, hne, if_false]
    exact ih h.2 hi

theorem Memory.insert_wfFrom {m : Memory} : ∀ {lo i : Nat} (b : Byte), Memory.wfFrom lo m = true → lo ≤ i →
    i < Config.tokenBytes → Memory.wfFrom lo (Memory.insert m i b) = true := by
  induction m with
  | nil =>
    intro lo i b _ hl hi
    by_cases hb : b = Memory.blank <;> simp [Memory.insert, Memory.wfFrom, hb, hl, hi]
  | cons c m ih =>
    obtain ⟨j, d⟩ := c
    intro lo i b h hl hi
    have h' := h
    simp only [Memory.wfFrom, Bool.and_eq_true, decide_eq_true_eq] at h
    obtain ⟨⟨⟨hlj, hj⟩, hd⟩, hm⟩ := h
    simp only [Memory.insert]
    split
    · next hij =>
      split
      · exact h'
      · next hb =>
        simp only [Memory.wfFrom, Bool.and_eq_true, decide_eq_true_eq]
        exact ⟨⟨⟨hl, hi⟩, by simpa using hb⟩, ⟨⟨by omega, hj⟩, hd⟩, hm⟩
    · split
      · next hij =>
        subst hij
        split
        · exact Memory.wfFrom_mono hm (by omega)
        · next hb =>
          simp only [Memory.wfFrom, Bool.and_eq_true, decide_eq_true_eq]
          exact ⟨⟨⟨hl, hi⟩, by simpa using hb⟩, hm⟩
      · simp only [Memory.wfFrom, Bool.and_eq_true, decide_eq_true_eq]
        exact ⟨⟨⟨hlj, hj⟩, hd⟩, ih b hm (by omega) hi⟩

/-- What an insertion reads as. -/
theorem Memory.read_insert {m : Memory} : ∀ {lo : Nat} (i j : Nat) (b : Byte), Memory.wfFrom lo m = true →
    (Memory.insert m i b).read j = if j = i then b else m.read j := by
  induction m with
  | nil =>
    intro lo i j b _
    by_cases hb : b = Memory.blank
    · by_cases hj : j = i <;> simp [Memory.insert, Memory.read, hb]
    · by_cases hj : j = i <;> simp [Memory.insert, Memory.read, hb, hj]
  | cons c m ih =>
    obtain ⟨k, d⟩ := c
    intro lo i j b h
    simp only [Memory.wfFrom, Bool.and_eq_true, decide_eq_true_eq] at h
    obtain ⟨⟨⟨hlj, hj⟩, hd⟩, hm⟩ := h
    simp only [Memory.insert]
    split
    · next hik =>
      have hblank : Memory.read m i = Memory.blank := Memory.read_below hm (by omega)
      have hne : i ≠ k := by omega
      split
      · next hb =>
        split
        · next hji => subst hji; simp [Memory.read, hne, hblank, hb]
        · rfl
      · split
        · next hji => subst hji; simp [Memory.read]
        · next hji => simp [Memory.read, hji]
    · split
      · next hik =>
        subst hik
        have hblank : Memory.read m i = Memory.blank := Memory.read_below hm (by omega)
        split
        · next hb =>
          split
          · next hji => subst hji; rw [hblank, hb]
          · next hji => simp [Memory.read, hji]
        · split
          · next hji => subst hji; simp [Memory.read]
          · next hji => simp [Memory.read, hji]
      · next hik =>
        simp only [Memory.read]
        split
        · next hjk => subst hjk; simp [show j ≠ i by omega]
        · exact ih i j b hm

/-- A write keeps the canonical form. -/
theorem Memory.write_wf {m : Memory} (i : Nat) (b : Byte) (h : m.wf = true) : (m.write i b).wf = true := by
  unfold Memory.write
  split
  · next hi => exact Memory.insert_wfFrom b h (Nat.zero_le _) hi
  · exact h

/-- A byte written inside the buffer is read back, and no other byte changes. -/
theorem Memory.read_write {m : Memory} (i j : Nat) (b : Byte) (h : m.wf = true) (hi : i < Config.tokenBytes) :
    (m.write i b).read j = if j = i then b else m.read j := by
  rw [Memory.write, if_pos hi]
  exact Memory.read_insert i j b h

theorem Memory.writeFrom_wf (bs : List Byte) : ∀ {m : Memory} (i : Nat), m.wf = true → (m.writeFrom i bs).wf = true := by
  induction bs with
  | nil => intro m i h; exact h
  | cons b bs ih => intro m i h; exact ih (i + 1) (Memory.write_wf i b h)

/-- Consecutive bytes written inside the buffer are read back, and no other byte changes. -/
theorem Memory.read_writeFrom (bs : List Byte) : ∀ {m : Memory} (i j : Nat), m.wf = true →
    i + bs.length ≤ Config.tokenBytes →
    (m.writeFrom i bs).read j = if i ≤ j ∧ j < i + bs.length then bs.getD (j - i) 0 else m.read j := by
  induction bs with
  | nil => intro m i j _ _; simp [Memory.writeFrom]
  | cons b bs ih =>
    intro m i j h hl
    simp only [List.length_cons] at hl ⊢
    rw [Memory.writeFrom, ih (i + 1) j (Memory.write_wf i b h) (by omega), Memory.read_write i j b h (by omega)]
    by_cases h1 : j = i
    · subst h1; simp
    · by_cases h2 : i + 1 ≤ j ∧ j < i + 1 + bs.length
      · rw [if_pos h2, if_pos (by omega), show j - i = (j - (i + 1)) + 1 by omega]; rfl
      · rw [if_neg h2, if_neg h1, if_neg (by omega)]

/-- Two canonical buffers that read alike are the same list. -/
theorem Memory.ext_of_wfFrom : ∀ {m n : Memory} {lo : Nat}, Memory.wfFrom lo m = true → Memory.wfFrom lo n = true →
    (∀ i, m.read i = n.read i) → m = n := by
  intro m
  induction m with
  | nil =>
    intro n lo _ hn h
    cases n with
    | nil => rfl
    | cons c n =>
      obtain ⟨j, b⟩ := c
      simp only [Memory.wfFrom, Bool.and_eq_true, bne_iff_ne] at hn
      exact absurd (by simpa [Memory.read] using (h j).symm) hn.1.2
  | cons c m ih =>
    obtain ⟨j, b⟩ := c
    intro n lo hm hn h
    simp only [Memory.wfFrom, Bool.and_eq_true, decide_eq_true_eq, bne_iff_ne] at hm
    cases n with
    | nil => exact absurd (by simpa [Memory.read] using h j) hm.1.2
    | cons d n =>
      obtain ⟨k, e⟩ := d
      simp only [Memory.wfFrom, Bool.and_eq_true, decide_eq_true_eq, bne_iff_ne] at hn
      have hjk : j = k := by
        rcases Nat.lt_trichotomy j k with hlt | heq | hgt
        · have := h j
          simp only [Memory.read, if_true, show j ≠ k by omega, if_false, Memory.read_below hn.2 (show j < k + 1 by omega)] at this
          exact absurd this hm.1.2
        · exact heq
        · have := h k
          simp only [Memory.read, if_true, show k ≠ j by omega, if_false, Memory.read_below hm.2 (show k < j + 1 by omega)] at this
          exact absurd this.symm hn.1.2
      subst hjk
      have hb : b = e := by simpa [Memory.read] using h j
      subst hb
      congr 1
      refine ih hm.2 hn.2 fun i => ?_
      by_cases hi : i = j
      · subst hi
        rw [Memory.read_below hm.2 (by omega), Memory.read_below hn.2 (by omega)]
      · simpa [Memory.read, hi] using h i

/-- Two canonical buffers that read alike are equal data. -/
theorem Memory.ext {m n : Memory} (hm : m.wf = true) (hn : n.wf = true) (h : ∀ i, m.read i = n.read i) : m = n :=
  Memory.ext_of_wfFrom hm hn h

end Sys2Proof.Machine
end

