-- ==== Sys2Proof/Laws/Operands.lean ====
section
/-! SUPPORT. What the shared operand operations answer: the mask, trunc64, ceil5, the field index, the schema. -/

namespace Sys2Proof.Machine

theorem mask_eq (n : Nat) : mask n = 2 ^ n - 1 := by simp [mask, Nat.shiftLeft_eq]

theorem mask_lt (n : Nat) : mask n < 2 ^ n := by
  have := Nat.two_pow_pos n
  rw [mask_eq]; omega

/-- Anding with a mask keeps the low n bits (R122). -/
@[simp] theorem land_mask (v n : Nat) : v &&& mask n = v % 2 ^ n := by
  rw [mask_eq, Nat.and_two_pow_sub_one_eq_mod]

theorem trunc64_toNat (a : Nat) : (trunc64 a).toNat = a % 2 ^ 64 := by simp [trunc64]

theorem trunc64_of_lt {a : Nat} (h : a < 2 ^ 64) : (trunc64 a).toNat = a := by
  rw [trunc64_toNat, Nat.mod_eq_of_lt h]

theorem ceil5_eq (t : Nat) : ceil5 t = (t + 4) / 5 := rfl

theorem fieldIndex?_of_lt {f : Nat} (h : f < Config.maxFields) : fieldIndex? f = some ⟨f, h⟩ := by
  simp [fieldIndex?, h]

@[simp] theorem fieldIndex?_val (f : Fin Config.maxFields) : fieldIndex? f.val = some f := fieldIndex?_of_lt f.isLt

theorem fieldIndex?_of_ge {f : Nat} (h : Config.maxFields ≤ f) : fieldIndex? f = none := by
  simp [fieldIndex?, Nat.not_lt.mpr h]

theorem fieldIndex?_eq_some {f : Nat} {i : Fin Config.maxFields} (h : fieldIndex? f = some i) : f = i.val := by
  unfold fieldIndex? at h
  split at h
  · simp only [Option.some.injEq] at h; subst h; rfl
  · cases h

/-- The schema has min(FCOUNT, 8) fields. -/
theorem State.schema_length (s : State) : s.schema.length = min s.fcount.toNat Config.maxFields := by
  simp [State.schema]

/-- The i-th field of the schema is field i. -/
theorem State.schema_getElem? (s : State) (f : Fin Config.maxFields) :
    s.schema[f.val]? = if f.val < s.fcount.toNat then some (s.field f) else none := by
  simp only [State.schema, List.getElem?_take]
  split
  · simp [State.field]
  · rfl

/-- The widths of the first k of n fields, as a sum over indexes. -/
theorem sum_take_widths (k : Nat) : ∀ (n : Nat) (xs : List Field) (h : xs.length = n),
    ((xs.take k).map fun x => x.width.toNat).sum =
      ∑ i : Fin n, if i.val < k then (xs[i.val]'(h ▸ i.isLt)).width.toNat else 0 := by
  intro n
  induction n generalizing k with
  | zero => intro xs h; rw [List.length_eq_zero_iff] at h; subst h; simp
  | succ n ih =>
    intro xs h
    cases xs with
    | nil => simp at h
    | cons x xs =>
      rw [Fin.sum_univ_succ]
      cases k with
      | zero => simp
      | succ k =>
        simp only [List.length_cons, Nat.add_right_cancel_iff] at h
        rw [List.take_succ_cons, List.map_cons, List.sum_cons, ih k xs h]
        simp

/-- T is the sum of the widths of the fields below FCOUNT (R30). -/
theorem State.totalBits_eq_sum (s : State) :
    s.totalBits = ∑ f : Fin 8, if f.val < s.fcount.toNat then (s.field f).width.toNat else 0 :=
  sum_take_widths s.fcount.toNat 8 s.fields.toList (by simp)

/-- Whatever the registers hold, T is at most 8 · 127. -/
theorem State.totalBits_le (s : State) : s.totalBits ≤ 1016 := by
  have hb : ∀ xs : List Field, (xs.map fun x => x.width.toNat).sum ≤ 127 * xs.length := by
    intro xs
    induction xs with
    | nil => simp
    | cons x xs ih => have := x.width.isLt; simp only [List.map_cons, List.sum_cons, List.length_cons]; omega
  have := hb s.schema
  have hl := s.schema_length
  simp only [Config.maxFields] at hl
  unfold State.totalBits
  omega

theorem State.expLen_le (s : State) : s.expLen ≤ 204 := by
  have := s.totalBits_le
  unfold State.expLen
  rw [ceil5_eq]; omega

/-- With every width at most 64, T is at most 512 and the token at most 103 bytes (R6, R70). -/
theorem State.totalBits_le_512 {s : State} (h : ∀ f, (s.field f).width.toNat ≤ 64) : s.totalBits ≤ 512 := by
  have hb : ∀ xs : List Field, (∀ x ∈ xs, x.width.toNat ≤ 64) → (xs.map fun x => x.width.toNat).sum ≤ 64 * xs.length := by
    intro xs
    induction xs with
    | nil => simp
    | cons x xs ih =>
      intro hx
      have h1 := hx x (by simp)
      have h2 := ih fun y hy => hx y (by simp [hy])
      simp only [List.map_cons, List.sum_cons, List.length_cons]; omega
  have hmem : ∀ x ∈ s.schema, x.width.toNat ≤ 64 := by
    intro x hx
    obtain ⟨i, hi, rfl⟩ := List.mem_iff_getElem.mp (List.mem_of_mem_take hx)
    have h8 : i < Config.maxFields := by simpa using hi
    have := h ⟨i, h8⟩
    simpa [State.field] using this
  have := hb s.schema hmem
  have hl := s.schema_length
  simp only [Config.maxFields] at hl
  unfold State.totalBits
  omega

theorem State.expLen_le_103 {s : State} (h : ∀ f, (s.field f).width.toNat ≤ 64) : s.expLen ≤ 103 := by
  have := State.totalBits_le_512 h
  unfold State.expLen
  rw [ceil5_eq]; omega

end Sys2Proof.Machine
end

