-- ==== Sys2Proof/Laws/State.lean ====
section
/-! SUPPORT. One lemma per field of State for each named update of Machine/Ops.lean, so that no proof unfolds an
update. -/

namespace Sys2Proof.Machine

/-! ### raise -/
@[simp] theorem State.raise_fields (e : ErrorCode) (s : State) : (s.raise e).fields = s.fields := rfl
@[simp] theorem State.raise_fcount (e : ErrorCode) (s : State) : (s.raise e).fcount = s.fcount := rfl
@[simp] theorem State.raise_arg (e : ErrorCode) (s : State) : (s.raise e).arg = s.arg := rfl
@[simp] theorem State.raise_result (e : ErrorCode) (s : State) : (s.raise e).result = s.result := rfl
@[simp] theorem State.raise_status (e : ErrorCode) (s : State) : (s.raise e).status = s.status.failed e := rfl
@[simp] theorem State.raise_tlen (e : ErrorCode) (s : State) : (s.raise e).tlen = s.tlen := rfl
@[simp] theorem State.raise_lenobs (e : ErrorCode) (s : State) : (s.raise e).lenobs = if e = .length then s.tlen else s.lenobs := rfl
@[simp] theorem State.raise_lenexp (e : ErrorCode) (s : State) : (s.raise e).lenexp = if e = .length then BitVec.ofNat 8 s.expLen else s.lenexp := rfl
@[simp] theorem State.raise_token (e : ErrorCode) (s : State) : (s.raise e).token = s.token := rfl
@[simp] theorem State.raise_inputs (e : ErrorCode) (s : State) : (s.raise e).inputs = s.inputs := rfl
@[simp] theorem State.raise_response (e : ErrorCode) (s : State) : (s.raise e).response = s.response := rfl

/-! ### done -/
@[simp] theorem State.done_fields (s : State) : (s.done).fields = s.fields := rfl
@[simp] theorem State.done_fcount (s : State) : (s.done).fcount = s.fcount := rfl
@[simp] theorem State.done_arg (s : State) : (s.done).arg = s.arg := rfl
@[simp] theorem State.done_result (s : State) : (s.done).result = s.result := rfl
@[simp] theorem State.done_status (s : State) : (s.done).status = s.status.succeeded := rfl
@[simp] theorem State.done_tlen (s : State) : (s.done).tlen = s.tlen := rfl
@[simp] theorem State.done_lenobs (s : State) : (s.done).lenobs = s.lenobs := rfl
@[simp] theorem State.done_lenexp (s : State) : (s.done).lenexp = s.lenexp := rfl
@[simp] theorem State.done_token (s : State) : (s.done).token = s.token := rfl
@[simp] theorem State.done_inputs (s : State) : (s.done).inputs = s.inputs := rfl
@[simp] theorem State.done_response (s : State) : (s.done).response = s.response := rfl

/-! ### doneWith -/
@[simp] theorem State.doneWith_fields (v : Word) (s : State) : (s.doneWith v).fields = s.fields := rfl
@[simp] theorem State.doneWith_fcount (v : Word) (s : State) : (s.doneWith v).fcount = s.fcount := rfl
@[simp] theorem State.doneWith_arg (v : Word) (s : State) : (s.doneWith v).arg = s.arg := rfl
@[simp] theorem State.doneWith_result (v : Word) (s : State) : (s.doneWith v).result = v := rfl
@[simp] theorem State.doneWith_status (v : Word) (s : State) : (s.doneWith v).status = s.status.succeeded := rfl
@[simp] theorem State.doneWith_tlen (v : Word) (s : State) : (s.doneWith v).tlen = s.tlen := rfl
@[simp] theorem State.doneWith_lenobs (v : Word) (s : State) : (s.doneWith v).lenobs = s.lenobs := rfl
@[simp] theorem State.doneWith_lenexp (v : Word) (s : State) : (s.doneWith v).lenexp = s.lenexp := rfl
@[simp] theorem State.doneWith_token (v : Word) (s : State) : (s.doneWith v).token = s.token := rfl
@[simp] theorem State.doneWith_inputs (v : Word) (s : State) : (s.doneWith v).inputs = s.inputs := rfl
@[simp] theorem State.doneWith_response (v : Word) (s : State) : (s.doneWith v).response = s.response := rfl

/-! ### setField -/
@[simp] theorem State.setField_fields (f : Fin Config.maxFields) (x : Field) (s : State) : (s.setField f x).fields = s.fields.set f.val x f.isLt := rfl
@[simp] theorem State.setField_fcount (f : Fin Config.maxFields) (x : Field) (s : State) : (s.setField f x).fcount = s.fcount := rfl
@[simp] theorem State.setField_arg (f : Fin Config.maxFields) (x : Field) (s : State) : (s.setField f x).arg = s.arg := rfl
@[simp] theorem State.setField_result (f : Fin Config.maxFields) (x : Field) (s : State) : (s.setField f x).result = s.result := rfl
@[simp] theorem State.setField_status (f : Fin Config.maxFields) (x : Field) (s : State) : (s.setField f x).status = s.status := rfl
@[simp] theorem State.setField_tlen (f : Fin Config.maxFields) (x : Field) (s : State) : (s.setField f x).tlen = s.tlen := rfl
@[simp] theorem State.setField_lenobs (f : Fin Config.maxFields) (x : Field) (s : State) : (s.setField f x).lenobs = s.lenobs := rfl
@[simp] theorem State.setField_lenexp (f : Fin Config.maxFields) (x : Field) (s : State) : (s.setField f x).lenexp = s.lenexp := rfl
@[simp] theorem State.setField_token (f : Fin Config.maxFields) (x : Field) (s : State) : (s.setField f x).token = s.token := rfl
@[simp] theorem State.setField_inputs (f : Fin Config.maxFields) (x : Field) (s : State) : (s.setField f x).inputs = s.inputs := rfl
@[simp] theorem State.setField_response (f : Fin Config.maxFields) (x : Field) (s : State) : (s.setField f x).response = s.response := rfl

/-! ### Status -/

@[simp] theorem Status.failed_hb (e : ErrorCode) (t : Status) : (t.failed e).hb = t.hb := rfl
@[simp] theorem Status.failed_err (e : ErrorCode) (t : Status) : (t.failed e).err = true := rfl
@[simp] theorem Status.failed_sticky (e : ErrorCode) (t : Status) : (t.failed e).sticky = true := rfl
@[simp] theorem Status.failed_ecode (e : ErrorCode) (t : Status) : (t.failed e).ecode = e.code := rfl
@[simp] theorem Status.succeeded_hb (t : Status) : t.succeeded.hb = t.hb := rfl
@[simp] theorem Status.succeeded_err (t : Status) : t.succeeded.err = false := rfl
@[simp] theorem Status.succeeded_sticky (t : Status) : t.succeeded.sticky = t.sticky := rfl
@[simp] theorem Status.succeeded_ecode (t : Status) : t.succeeded.ecode = 0 := rfl
@[simp] theorem Status.setHb_hb (b : Bool) (t : Status) : (t.setHb b).hb = b := rfl
@[simp] theorem Status.setHb_err (b : Bool) (t : Status) : (t.setHb b).err = t.err := rfl
@[simp] theorem Status.setHb_sticky (b : Bool) (t : Status) : (t.setHb b).sticky = t.sticky := rfl
@[simp] theorem Status.setHb_ecode (b : Bool) (t : Status) : (t.setHb b).ecode = t.ecode := rfl
@[simp] theorem Status.cleared_hb (t : Status) : t.cleared.hb = false := rfl
@[simp] theorem Status.cleared_err (t : Status) : t.cleared.err = t.err := rfl
@[simp] theorem Status.cleared_sticky (t : Status) : t.cleared.sticky = false := rfl
@[simp] theorem Status.cleared_ecode (t : Status) : t.cleared.ecode = t.ecode := rfl

/-- Every error code is one of 1 to 5 (R231). -/
theorem ErrorCode.code_bounds (e : ErrorCode) : e.code ≠ 0 ∧ e.code.toNat ≤ 5 := by cases e <;> decide

/-! ### Fields of the register file -/

@[simp] theorem State.field_setField_self (s : State) (f : Fin Config.maxFields) (x : Field) :
    (s.setField f x).field f = x := by simp [State.field, State.setField]

theorem State.field_setField_of_ne (s : State) (f g : Fin Config.maxFields) (x : Field) (h : g ≠ f) :
    (s.setField f x).field g = s.field g := by
  have : f.val ≠ g.val := fun e => h (Fin.ext e.symm)
  simp [State.field, State.setField, this]

theorem State.field_setField (s : State) (f g : Fin Config.maxFields) (x : Field) :
    (s.setField f x).field g = if g = f then x else s.field g := by
  split
  · next h => subst h; simp
  · next h => exact State.field_setField_of_ne s f g x h

@[simp] theorem State.field_raise (e : ErrorCode) (s : State) (g : Fin Config.maxFields) :
    (s.raise e).field g = s.field g := rfl
@[simp] theorem State.field_done (s : State) (g : Fin Config.maxFields) : s.done.field g = s.field g := rfl
@[simp] theorem State.field_doneWith (v : Word) (s : State) (g : Fin Config.maxFields) :
    (s.doneWith v).field g = s.field g := rfl

@[simp] theorem Field.restored_value (x : Field) : x.restored.value = x.value := rfl
@[simp] theorem Field.restored_width (x : Field) : x.restored.width = x.width := rfl
@[simp] theorem Field.restored_rem (x : Field) : x.restored.rem = x.width := rfl

/-- The restored field file, field by field (R182). -/
theorem State.restoredFields_getElem (s : State) (i : Nat) (h : i < Config.maxFields) :
    s.restoredFields[i] = if i < s.fcount.toNat then s.fields[i].restored else s.fields[i] := by
  simp [State.restoredFields]

/-! ### The schema and its totals depend on the fields and FCOUNT alone -/

theorem State.schema_congr {s t : State} (hf : t.fields = s.fields) (hc : t.fcount = s.fcount) :
    t.schema = s.schema := by simp [State.schema, hf, hc]

theorem State.expLen_congr {s t : State} (hf : t.fields = s.fields) (hc : t.fcount = s.fcount) :
    t.expLen = s.expLen := by simp [State.expLen, State.totalBits, State.schema_congr hf hc]

end Sys2Proof.Machine
end

