-- ==== Sys2Proof/Laws/Codec.lean ====
section
/-! SUPPORT. What the codec's loops compute. ENCODE: the slicer always represents the bits consumed so far
(spec/43_codec.md R186), so its symbols are the bitstream cut in fives. DECODE: each field's value is read off the
token's bits at the field's offset (R192). -/

namespace Sys2Proof.Machine

/-! ## Field bits -/

@[simp] theorem fieldBits_length (v w : Nat) : (fieldBits v w).length = w := by simp [fieldBits]

@[simp] theorem fieldBits_zero (v : Nat) : fieldBits v 0 = [] := rfl

theorem fieldBits_getElem? (v w q : Nat) : (fieldBits v w)[q]? = if q < w then some (v.testBit (w - 1 - q)) else none := by
  simp only [fieldBits, List.getElem?_map]
  split
  · next h => simp [List.getElem?_range h]
  · next h => simp [List.getElem?_eq_none (show (List.range w).length ≤ q by simpa using h)]

/-- A field's bits are its high part's bits, then its low part's. -/
theorem fieldBits_append (v a b : Nat) : fieldBits (v >>> b) a ++ fieldBits v b = fieldBits v (a + b) := by
  refine List.ext_getElem? fun q => ?_
  rw [List.getElem?_append]
  simp only [fieldBits_length, fieldBits_getElem?]
  by_cases h : q < a
  · rw [if_pos h, if_pos h, if_pos (by omega), Nat.testBit_shiftRight]
    congr 2; omega
  · rw [if_neg h]
    by_cases h2 : q - a < b
    · rw [if_pos h2, if_pos (by omega)]
      congr 2; omega
    · rw [if_neg h2, if_neg (by omega)]

/-- A field's bits depend on its low bits alone (R188). -/
theorem fieldBits_congr {v v' w : Nat} (h : v % 2 ^ w = v' % 2 ^ w) : fieldBits v w = fieldBits v' w := by
  refine List.ext_getElem? fun q => ?_
  simp only [fieldBits_getElem?]
  split
  · next hq =>
    have := congrArg (fun x => x.testBit (w - 1 - q)) h
    simp only [Nat.testBit_mod_two_pow, show w - 1 - q < w by omega, decide_true, Bool.true_and] at this
    rw [this]
  · rfl

/-! ## ENCODE -/

/-- The five bits of a symbol, bit 4 first. -/
def symBits (x : Symbol) : List Bool := fieldBits x.toNat 5

/-- The slicer z has consumed exactly the bits B: the emitted symbols' bits, then the lo leftover bits at the top of
acc, with nothing below them (R186). -/
structure Slicer.Holds (z : Slicer) (B : List Bool) : Prop where
  lo_le : z.lo ≤ 4
  acc_lt : z.acc < 32
  low_zero : z.acc % 2 ^ (5 - z.lo) = 0
  bits : z.out.flatMap symBits ++ fieldBits (z.acc >>> (5 - z.lo)) z.lo = B

theorem Slicer.start_holds : Slicer.start.Holds [] := ⟨by decide, by decide, by decide, rfl⟩

/-- Putting a below-n-bits number under an accumulator whose low n bits are 0. -/
theorem lor_low {acc x n : Nat} (hacc : acc % 2 ^ n = 0) (hx : x < 2 ^ n) : acc ||| x = acc + x := by
  obtain ⟨q, rfl⟩ := Nat.dvd_of_mod_eq_zero hacc
  rw [Nat.two_pow_add_eq_or_of_lt hx]

/-- One turn of the encode loop: the symbol emitted holds the leftover bits and the field's next 5 − lo bits. -/
theorem Slicer.emit_holds {z : Slicer} {B : List Bool} (h : z.Holds B) (y : Nat) (hy : y < 2 ^ (5 - z.lo)) :
    (z.emit (z.acc ||| y)).Holds (B ++ fieldBits y (5 - z.lo)) := by
  have hlo := h.lo_le
  have hsum : z.acc ||| y = z.acc + y := lor_low h.low_zero hy
  have hlt : z.acc ||| y < 32 := by
    rw [show (32 : Nat) = 2 ^ 5 from rfl]
    refine Nat.or_lt_two_pow h.acc_lt (lt_of_lt_of_le hy (Nat.pow_le_pow_right (by decide) (by omega)))
  refine ⟨by simp [Slicer.emit], by simp [Slicer.emit], by simp [Slicer.emit], ?_⟩
  have hsym : symBits (BitVec.ofNat 5 (z.acc ||| y)) =
      fieldBits (z.acc >>> (5 - z.lo)) z.lo ++ fieldBits y (5 - z.lo) := by
    have hnat : (BitVec.ofNat 5 (z.acc ||| y)).toNat = z.acc ||| y := by
      rw [BitVec.toNat_ofNat, Nat.mod_eq_of_lt hlt]
    have hhigh : (z.acc ||| y) >>> (5 - z.lo) = z.acc >>> (5 - z.lo) := by
      rw [hsum, Nat.shiftRight_eq_div_pow, Nat.shiftRight_eq_div_pow]
      obtain ⟨q, hq⟩ := Nat.dvd_of_mod_eq_zero h.low_zero
      rw [hq, Nat.mul_add_div (Nat.two_pow_pos _), Nat.div_eq_of_lt hy, Nat.mul_div_cancel_left _ (Nat.two_pow_pos _)]
      omega
    have hlow : (z.acc ||| y) % 2 ^ (5 - z.lo) = y % 2 ^ (5 - z.lo) := by
      rw [hsum, Nat.add_mod, h.low_zero]; simp
    rw [symBits, hnat, ← fieldBits_congr hlow, ← hhigh, fieldBits_append]
    congr 1; omega
  simp only [Slicer.emit, List.flatMap_append, List.flatMap_cons, List.flatMap_nil, List.append_nil, hsym, fieldBits_zero]
  rw [← h.bits, List.append_assoc]

/-- The encode loop: what it consumed and the r' bits it leaves, fewer than a symbol's room. -/
theorem sliceLoop_holds (v : Nat) : ∀ (fuel r : Nat) (z : Slicer) (B : List Bool), z.Holds B → r ≤ fuel →
    ∃ B', (sliceLoop v fuel r z).2.Holds B' ∧
      B' ++ fieldBits v (sliceLoop v fuel r z).1 = B ++ fieldBits v r ∧
      (sliceLoop v fuel r z).1 < 5 - (sliceLoop v fuel r z).2.lo := by
  intro fuel
  induction fuel with
  | zero =>
    intro r z B h hr
    have := h.lo_le
    exact ⟨B, h, rfl, by simp only [sliceLoop]; omega⟩
  | succ fuel ih =>
    intro r z B h hr
    have hlo := h.lo_le
    simp only [sliceLoop]
    split
    · next hge =>
      rw [land_mask]
      have hy : (v >>> (r - (5 - z.lo))) % 2 ^ (5 - z.lo) < 2 ^ (5 - z.lo) := Nat.mod_lt _ (Nat.two_pow_pos _)
      have hstep := Slicer.emit_holds h _ hy
      obtain ⟨B', h1, h2, h3⟩ := ih (r - (5 - z.lo)) _ _ hstep (by omega)
      refine ⟨B', h1, ?_, h3⟩
      rw [h2, List.append_assoc, fieldBits_congr (Nat.mod_mod _ _), fieldBits_append]
      congr 2; omega
    · next hlt => exact ⟨B, h, rfl, by simp only; omega⟩

/-- The fold: the field's last r bits go just below the leftover bits (R183). -/
theorem Slicer.fold_holds {z : Slicer} {B : List Bool} (h : z.Holds B) (v r : Nat) (hr : r < 5 - z.lo) :
    (z.fold v r).Holds (B ++ fieldBits v r) := by
  have hlo := h.lo_le
  unfold Slicer.fold
  split
  · next hpos =>
    rw [land_mask, Nat.shiftLeft_eq]
    have hn : 2 ^ (5 - z.lo) = 2 ^ r * 2 ^ (5 - z.lo - r) := by rw [← Nat.pow_add]; congr 1; omega
    have hx : v % 2 ^ r < 2 ^ r := Nat.mod_lt _ (Nat.two_pow_pos _)
    have hlow : (v % 2 ^ r) * 2 ^ (5 - z.lo - r) < 2 ^ (5 - z.lo) := by
      rw [hn]; exact Nat.mul_lt_mul_of_pos_right hx (Nat.two_pow_pos _)
    have hsum := lor_low h.low_zero hlow
    obtain ⟨q, hq⟩ := Nat.dvd_of_mod_eq_zero h.low_zero
    have hfac : z.acc ||| (v % 2 ^ r) * 2 ^ (5 - z.lo - r) = (q * 2 ^ r + v % 2 ^ r) * 2 ^ (5 - z.lo - r) := by
      rw [hsum, hq, hn]; ring
    have he : 5 - (z.lo + r) = 5 - z.lo - r := by omega
    refine ⟨by simp only; omega, ?_, ?_, ?_⟩
    · simp only
      rw [show (32 : Nat) = 2 ^ 5 from rfl]
      exact Nat.or_lt_two_pow h.acc_lt (lt_of_lt_of_le hlow (Nat.pow_le_pow_right (by decide) (by omega)))
    · simp only
      rw [he, hfac, Nat.mul_mod_left]
    · simp only
      rw [he, hfac, Nat.shiftRight_eq_div_pow, Nat.mul_div_cancel _ (Nat.two_pow_pos _), ← h.bits, List.append_assoc]
      congr 1
      rw [← fieldBits_append (q * 2 ^ r + v % 2 ^ r) z.lo r]
      congr 1
      · rw [hq, Nat.shiftRight_eq_div_pow, Nat.shiftRight_eq_div_pow, Nat.mul_div_cancel_left _ (Nat.two_pow_pos _),
          Nat.mul_comm, Nat.mul_add_div (Nat.two_pow_pos _), Nat.div_eq_of_lt hx, Nat.add_zero]
      · exact fieldBits_congr (by simp [Nat.add_mod])
  · next hz =>
    have : r = 0 := by omega
    subst this
    simpa using h

/-- One field appends its bits. -/
theorem sliceField_holds {z : Slicer} {B : List Bool} (h : z.Holds B) (x : Field) :
    (sliceField z x).Holds (B ++ fieldBits x.value.toNat x.width.toNat) := by
  obtain ⟨B', h1, h2, h3⟩ := sliceLoop_holds x.value.toNat x.width.toNat x.width.toNat z B h (Nat.le_refl _)
  rw [← h2]
  exact Slicer.fold_holds h1 _ _ h3

/-- The bitstream of a list of fields (R10). -/
def streamOf (xs : List Field) : List Bool := bitstream (xs.map fun x => (x.value.toNat, x.width.toNat))

theorem streamOf_cons (x : Field) (xs : List Field) :
    streamOf (x :: xs) = fieldBits x.value.toNat x.width.toNat ++ streamOf xs := rfl

theorem streamOf_length (xs : List Field) : (streamOf xs).length = (xs.map fun x => x.width.toNat).sum := by
  induction xs with
  | nil => rfl
  | cons x xs ih => rw [streamOf_cons, List.length_append, fieldBits_length, ih]; simp

/-- After all fields the slicer holds the whole bitstream. -/
theorem foldl_sliceField_holds (xs : List Field) : ∀ (z : Slicer) (B : List Bool), z.Holds B →
    (xs.foldl sliceField z).Holds (B ++ streamOf xs) := by
  induction xs with
  | nil => intro z B h; simpa [streamOf, bitstream] using h
  | cons x xs ih =>
    intro z B h
    rw [List.foldl_cons, streamOf_cons, ← List.append_assoc]
    exact ih _ _ (sliceField_holds h x)

theorem flatMap_symBits_length (ys : List Symbol) : (ys.flatMap symBits).length = 5 * ys.length := by
  induction ys with
  | nil => rfl
  | cons y ys ih => simp only [List.flatMap_cons, List.length_append, List.length_cons, ih, symBits, fieldBits_length]; omega

/-- ENCODE's symbols are the bitstream followed by fewer than 5 zero bits (R185, R187). -/
theorem encodeSymbols_bits (xs : List Field) :
    ∃ pad, pad < 5 ∧ (encodeSymbols xs).flatMap symBits = streamOf xs ++ List.replicate pad false := by
  have h := foldl_sliceField_holds xs Slicer.start [] Slicer.start_holds
  rw [List.nil_append] at h
  have hlo := h.lo_le
  unfold encodeSymbols Slicer.finish
  generalize xs.foldl sliceField Slicer.start = z at h hlo
  split
  · next hpos =>
    refine ⟨5 - z.lo, by omega, ?_⟩
    have hnat : (BitVec.ofNat 5 z.acc).toNat = z.acc := by
      rw [BitVec.toNat_ofNat, Nat.mod_eq_of_lt h.acc_lt]
    have hzero : fieldBits z.acc (5 - z.lo) = List.replicate (5 - z.lo) false := by
      rw [fieldBits_congr (show z.acc % 2 ^ (5 - z.lo) = 0 % 2 ^ (5 - z.lo) by rw [h.low_zero, Nat.zero_mod])]
      refine List.ext_getElem? fun q => ?_
      rw [fieldBits_getElem?, List.getElem?_replicate, Nat.zero_testBit]
    have hsym : symBits (BitVec.ofNat 5 z.acc) = fieldBits (z.acc >>> (5 - z.lo)) z.lo ++ fieldBits z.acc (5 - z.lo) := by
      rw [symBits, hnat, fieldBits_append]; congr 1; omega
    rw [List.flatMap_append, List.flatMap_cons, List.flatMap_nil, List.append_nil, hsym, ← List.append_assoc, h.bits, hzero]
  · next hz =>
    have h0 : z.lo = 0 := by omega
    refine ⟨0, by decide, ?_⟩
    have := h.bits
    rw [h0] at this
    simpa using this

/-- ENCODE emits ceil5(T) symbols (R184). -/
theorem encodeSymbols_length (xs : List Field) :
    (encodeSymbols xs).length = ceil5 (xs.map fun x => x.width.toNat).sum := by
  obtain ⟨pad, hpad, h⟩ := encodeSymbols_bits xs
  have := congrArg List.length h
  rw [flatMap_symBits_length, List.length_append, List.length_replicate, streamOf_length] at this
  rw [ceil5_eq]; omega

theorem State.encodeSymbols_length (s : State) : (encodeSymbols s.schema).length = s.expLen :=
  Machine.encodeSymbols_length s.schema

theorem flatMap_symBits_getD (ys : List Symbol) : ∀ (j m : Nat), m < 5 →
    (ys.flatMap symBits).getD (5 * j + m) false = (ys.getD j 0).toNat.testBit (4 - m) := by
  induction ys with
  | nil => intro j m _; simp
  | cons y ys ih =>
    intro j m hm
    rw [List.flatMap_cons, List.getD_eq_getElem?_getD, List.getElem?_append]
    simp only [symBits, fieldBits_length]
    cases j with
    | zero =>
      rw [if_pos (by omega), fieldBits_getElem?, if_pos (by omega)]
      simp
    | succ j =>
      rw [if_neg (by omega), show 5 * (j + 1) + m - 5 = 5 * j + m by omega, ← List.getD_eq_getElem?_getD, List.getD_cons_succ]
      exact ih j m hm

/-- Bit 4 − m of ENCODE's symbol j is bitstream bit 5j + m, 0 beyond the stream (R187). -/
theorem encodeSymbols_testBit (xs : List Field) (j m : Nat) (hm : m < 5) :
    ((encodeSymbols xs).getD j 0).toNat.testBit (4 - m) = (streamOf xs).getD (5 * j + m) false := by
  obtain ⟨pad, -, h⟩ := encodeSymbols_bits xs
  rw [← flatMap_symBits_getD _ j m hm, h]
  simp only [List.getD_eq_getElem?_getD, List.getElem?_append]
  split
  · rfl
  · next hge =>
    rw [List.getElem?_eq_none (show (streamOf xs).length ≤ 5 * j + m by omega), List.getElem?_replicate]
    split <;> rfl

/-- A symbol is the sum of its five bits. -/
theorem symbol_eq_sum (x : Symbol) :
    x.toNat = ((List.range 5).map fun m => (x.toNat.testBit (4 - m)).toNat * 2 ^ (4 - m)).sum := by
  revert x; decide

/-- ENCODE's symbol j is the value R187 gives it. -/
theorem encodeSymbols_getD (xs : List Field) (j : Nat) :
    ((encodeSymbols xs).getD j 0).toNat = symbolOf (streamOf xs) j := by
  rw [symbol_eq_sum, symbolOf]
  congr 1
  refine List.map_congr_left fun m hm => ?_
  rw [encodeSymbols_testBit xs j m (by simpa using hm)]

/-! ## The offset of a field in the bitstream -/

/-- The bitstream position of field i's first bit. -/
def offsetOf (xs : List Field) (i : Nat) : Nat := ((xs.take i).map fun x => x.width.toNat).sum

/-- Bit q of field i is bitstream bit offset + q (R10). -/
theorem streamOf_getD (xs : List Field) : ∀ (i q : Nat) (x : Field), xs[i]? = some x → q < x.width.toNat →
    (streamOf xs).getD (offsetOf xs i + q) false = x.value.toNat.testBit (x.width.toNat - 1 - q) := by
  induction xs with
  | nil => intro i q x h; simp at h
  | cons y ys ih =>
    intro i q x hx hq
    cases i with
    | zero =>
      simp only [List.getElem?_cons_zero, Option.some.injEq] at hx
      subst hx
      rw [streamOf_cons, List.getD_eq_getElem?_getD, List.getElem?_append, if_pos (by simpa [offsetOf] using hq)]
      rw [show offsetOf (y :: ys) 0 + q = q by simp [offsetOf], fieldBits_getElem?, if_pos hq]
      rfl
    | succ i =>
      simp only [List.getElem?_cons_succ] at hx
      rw [streamOf_cons, List.getD_eq_getElem?_getD, List.getElem?_append]
      have ho : offsetOf (y :: ys) (i + 1) = y.width.toNat + offsetOf ys i := by simp [offsetOf]
      rw [fieldBits_length, if_neg (by omega), ho, show y.width.toNat + offsetOf ys i + q - y.width.toNat = offsetOf ys i + q by omega,
        ← List.getD_eq_getElem?_getD]
      exact ih i q x hx hq

/-- The offset of a schema field, as a sum over the fields before it (R10). -/
theorem offsetOf_schema (s : State) (f : Fin 8) (h : f.val < s.fcount.toNat) :
    offsetOf s.schema f.val = ∑ g : Fin 8, if g < f then (s.field g).width.toNat else 0 := by
  unfold offsetOf
  rw [State.schema, List.take_take, Nat.min_eq_left (by omega)]
  exact sum_take_widths f.val 8 s.fields.toList (by simp)

theorem offsetOf_add_width_le (xs : List Field) (i : Nat) (x : Field) (h : xs[i]? = some x) :
    offsetOf xs i + x.width.toNat ≤ (xs.map fun x => x.width.toNat).sum := by
  have hlt : i < xs.length := by
    by_contra hge
    rw [List.getElem?_eq_none (by omega)] at h; cases h
  have hx : xs[i] = x := by rw [List.getElem?_eq_getElem hlt] at h; exact Option.some.inj h
  conv_rhs => rw [← List.take_append_drop i xs, List.map_append, List.sum_append, List.drop_eq_getElem_cons hlt]
  simp only [List.map_cons, List.sum_cons, hx, offsetOf]
  omega

/-! ## DECODE -/

/-- The number whose r bits, most significant first, are b p, b (p+1), …, b (p+r−1). -/
def segment (b : Nat → Bool) (p : Nat) : Nat → Nat
  | 0 => 0
  | r + 1 => 2 * segment b p r + (b (p + r)).toNat

theorem segment_lt (b : Nat → Bool) (p r : Nat) : segment b p r < 2 ^ r := by
  induction r with
  | zero => simp [segment]
  | succ r ih =>
    have : (b (p + r)).toNat ≤ 1 := by cases b (p + r) <;> decide
    simp only [segment, Nat.pow_succ]; omega

theorem segment_testBit (b : Nat → Bool) (p : Nat) : ∀ (r i : Nat),
    (segment b p r).testBit i = (decide (i < r) && b (p + (r - 1 - i))) := by
  intro r
  induction r with
  | zero => intro i; simp [segment]
  | succ r ih =>
    intro i
    cases i with
    | zero =>
      have : (2 * segment b p r + (b (p + r)).toNat).testBit 0 = b (p + r) := by
        rw [Nat.testBit_zero]
        cases b (p + r) <;> simp [Nat.add_mod]
      simpa [segment] using this
    | succ i =>
      have hdiv : (2 * segment b p r + (b (p + r)).toNat) / 2 = segment b p r := by
        have : (b (p + r)).toNat ≤ 1 := by cases b (p + r) <;> decide
        omega
      rw [segment, Nat.testBit_succ, hdiv, ih i]
      congr 1
      · simp
      · congr 2; omega

/-- A segment is its first part shifted, and its second part. -/
theorem segment_add (b : Nat → Bool) (p a c : Nat) :
    segment b p (a + c) = segment b p a * 2 ^ c + segment b (p + a) c := by
  induction c with
  | zero => simp [segment]
  | succ c ih => rw [← Nat.add_assoc, segment, ih, segment, Nat.pow_succ, Nat.add_assoc p a c]; ring

theorem segment_congr {b b' : Nat → Bool} {p r : Nat} (h : ∀ q, q < r → b (p + q) = b' (p + q)) :
    segment b p r = segment b' p r := by
  induction r with
  | zero => rfl
  | succ r ih => rw [segment, segment, h r (by omega), ih fun q hq => h q (by omega)]

/-- Bit m of a symbol list read as one stream, symbol bit 4 first (R68). -/
def streamBit (sv : List Symbol) (m : Nat) : Bool := (symbolValue sv (m / 5)).testBit (4 - m % 5)

/-- The stream position of a cursor: the bits consumed so far (R192). -/
def Cursor.pos (u : Cursor) : Nat := 5 * u.c + (5 - u.sba)

/-- 1 ≤ sba ≤ 5 (R192). -/
def Cursor.Ok (u : Cursor) : Prop := 1 ≤ u.sba ∧ u.sba ≤ 5

/-- The top a of the sba unconsumed bits of the current symbol are the next a stream bits. -/
theorem take_bits (sv : List Symbol) {u : Cursor} (hu : u.Ok) {a : Nat} (ha : a ≤ u.sba) :
    (symbolValue sv u.c >>> (u.sba - a)) % 2 ^ a = segment (streamBit sv) u.pos a := by
  obtain ⟨h1, h5⟩ := hu
  refine Nat.eq_of_testBit_eq fun i => ?_
  rw [segment_testBit, Nat.testBit_mod_two_pow, Nat.testBit_shiftRight]
  by_cases hi : i < a
  · simp only [hi, decide_true, Bool.true_and, streamBit, Cursor.pos]
    rw [show (5 * u.c + (5 - u.sba) + (a - 1 - i)) / 5 = u.c by omega]
    congr 1; omega
  · simp [hi]

/-- The decode loop: it appends the stream's next bits and leaves fewer than sba bits to take. -/
theorem unsliceLoop_spec (sv : List Symbol) : ∀ (fuel val r : Nat) (u : Cursor), u.Ok → r ≤ fuel →
    ∃ d, d ≤ r ∧ (unsliceLoop sv fuel val r u).1 = val * 2 ^ d + segment (streamBit sv) u.pos d ∧
      (unsliceLoop sv fuel val r u).2.1 = r - d ∧ (unsliceLoop sv fuel val r u).2.2.Ok ∧
      (unsliceLoop sv fuel val r u).2.2.pos = u.pos + d ∧ r - d < (unsliceLoop sv fuel val r u).2.2.sba := by
  intro fuel
  induction fuel with
  | zero =>
    intro val r u hu hr
    exact ⟨0, Nat.zero_le _, by simp [unsliceLoop, segment], by simp [unsliceLoop], hu, rfl,
      by have := hu.1; simp only [unsliceLoop]; omega⟩
  | succ fuel ih =>
    intro val r u hu hr
    have h1 := hu.1
    have h5 := hu.2
    simp only [unsliceLoop]
    split
    · next hge =>
      have hadv : u.advance.Ok := ⟨by simp [Cursor.advance], by simp [Cursor.advance]⟩
      have hpos : u.advance.pos = u.pos + u.sba := by simp only [Cursor.advance, Cursor.pos]; omega
      have hval : (val <<< u.sba) ||| (symbolValue sv u.c &&& mask u.sba) =
          val * 2 ^ u.sba + segment (streamBit sv) u.pos u.sba := by
        have := take_bits sv hu (Nat.le_refl u.sba)
        rw [Nat.sub_self, Nat.shiftRight_zero] at this
        rw [land_mask, this, Nat.shiftLeft_eq, lor_low (Nat.mul_mod_left _ _) (segment_lt _ _ _)]
      obtain ⟨d, hd, e1, e2, e3, e4, e5⟩ := ih
        ((val <<< u.sba) ||| (symbolValue sv u.c &&& mask u.sba)) (r - u.sba) u.advance hadv (by omega)
      refine ⟨u.sba + d, by omega, ?_, ?_, e3, ?_, ?_⟩
      · rw [e1, hval, segment_add, hpos, Nat.pow_add]; ring
      · rw [e2]; omega
      · rw [e4, hpos]; omega
      · rw [show r - (u.sba + d) = r - u.sba - d by omega]; exact e5
    · next hlt =>
      exact ⟨0, Nat.zero_le _, by simp [segment], by simp, hu, rfl, by simp only [Nat.sub_zero]; omega⟩

/-- One field of width w takes the stream's next w bits. -/
theorem unsliceField_spec (sv : List Symbol) (w : Nat) {u : Cursor} (hu : u.Ok) :
    (unsliceField sv w u).1 = segment (streamBit sv) u.pos w ∧ (unsliceField sv w u).2.Ok ∧
      (unsliceField sv w u).2.pos = u.pos + w := by
  obtain ⟨d, hd, e1, e2, e3, e4, e5⟩ := unsliceLoop_spec sv w 0 w u hu (Nat.le_refl _)
  unfold unsliceField takeTop
  rw [e1, e2]
  generalize (unsliceLoop sv w 0 w u).2.2 = u' at e3 e4 e5 ⊢
  rw [Nat.zero_mul, Nat.zero_add]
  split
  · next hpos =>
    have h1 := e3.1
    have h5 := e3.2
    refine ⟨?_, ⟨by simp only; omega, by simp only; omega⟩, ?_⟩
    · simp only
      rw [land_mask, take_bits sv e3 (Nat.le_of_lt e5), Nat.shiftLeft_eq,
        lor_low (Nat.mul_mod_left _ _) (segment_lt _ _ _), e4, ← segment_add]
      congr 1; omega
    · simp only [Cursor.pos] at e4 ⊢; omega
  · next hz =>
    have : d = w := by omega
    subst this
    exact ⟨rfl, e3, e4⟩

/-- DECODE's new values: each field's segment of the stream, at its offset (R191). -/
theorem unsliceFields_getElem? (sv : List Symbol) : ∀ (ws : List Nat) (u : Cursor), u.Ok → ∀ i,
    (unsliceFields sv ws u)[i]? = (ws[i]?).map fun w => segment (streamBit sv) (u.pos + (ws.take i).sum) w := by
  intro ws
  induction ws with
  | nil => intro u _ i; simp [unsliceFields]
  | cons w ws ih =>
    intro u hu i
    obtain ⟨h1, h2, h3⟩ := unsliceField_spec sv w hu
    cases i with
    | zero => simp [unsliceFields, h1]
    | succ i =>
      simp only [unsliceFields, List.getElem?_cons_succ, List.take_succ_cons, List.sum_cons]
      rw [ih _ h2 i, h3, Nat.add_assoc]

theorem Cursor.start_ok : Cursor.start.Ok := ⟨by decide, by decide⟩

/-- DECODE's value of schema field i is the token's segment at the field's offset. -/
theorem State.newValues_getElem? (s : State) (i : Nat) :
    s.newValues[i]? = (s.schema[i]?).map fun x =>
      segment (streamBit s.tokenSymbols) (offsetOf s.schema i) x.width.toNat := by
  rw [State.newValues, unsliceFields_getElem? _ _ _ Cursor.start_ok]
  simp only [List.getElem?_map, Option.map_map, offsetOf, Function.comp_def]
  have : Cursor.start.pos = 0 := rfl
  rw [this, Nat.zero_add, ← List.map_take]

/-- Stream bit m of the token, for m inside it, is bit 4 − m mod 5 of byte m / 5's symbol. -/
theorem State.tokenSymbols_bit (s : State) (m : Nat) (h : m < 5 * s.tlen.toNat) :
    streamBit s.tokenSymbols m = (decRom (s.token.read (m / 5))).toNat.testBit (4 - m % 5) := by
  have hj : m / 5 < s.tlen.toNat := by omega
  simp [streamBit, symbolValue, State.tokenSymbols, List.getD_eq_getElem?_getD, hj]

/-- The decoded field file, field by field (R182, R191). -/
theorem State.decodedFields_getElem (s : State) (i : Nat) (h : i < Config.maxFields) :
    s.decodedFields[i] = if i < s.fcount.toNat then
      { s.fields[i].restored with
        value := trunc64 (segment (streamBit s.tokenSymbols) (offsetOf s.schema i) s.fields[i].width.toNat) }
      else s.fields[i] := by
  have hs := s.schema_getElem? ⟨i, h⟩
  have hf : s.field ⟨i, h⟩ = s.fields[i] := rfl
  simp only [hf] at hs
  simp only [State.decodedFields, Vector.getElem_mapIdx, State.newValues_getElem?, hs]
  by_cases hi : i < s.fcount.toNat
  · simp only [hi, if_true, Option.map_some]
  · simp only [hi, if_false, Option.map_none]

/-! ## The token buffer after ENCODE -/

/-- ENCODE's bytes: the symbols' bytes in the first EXPLEN places, the old bytes above (R183). -/
theorem State.encoded_read {s : State} (hw : s.token.wf = true) (hl : s.expLen ≤ Config.tokenBytes) (j : Nat) :
    (s.token.writeFrom 0 ((encodeSymbols s.schema).map encRom)).read j =
      if j < s.expLen then encRom ((encodeSymbols s.schema).getD j 0) else s.token.read j := by
  have hlen := s.encodeSymbols_length
  rw [Memory.read_writeFrom _ _ _ hw (by simpa [hlen] using hl)]
  simp only [List.length_map, hlen, Nat.zero_le, Nat.zero_add, true_and, Nat.sub_zero]
  split
  · next h =>
    have : j < (encodeSymbols s.schema).length := by rw [hlen]; exact h
    simp [List.getD_eq_getElem?_getD, this]
  · rfl

/-! ## The ROM -/

/-- DEC_ROM inverts ENC_ROM (R161). -/
@[simp] theorem decRom_encRom (v : Symbol) : decRom (encRom v) = v := by revert v; decide

/-- A byte that is no ENC_ROM byte decodes to 0 (R161). -/
theorem decRom_outside (b : Byte) (h : ∀ v, encRom v ≠ b) : decRom b = 0 := by
  unfold decRom
  split
  · next hlt =>
    have hget : romTable[romTable.idxOf b]'hlt = b := List.getElem_idxOf hlt
    refine absurd ?_ (h (BitVec.ofNat 5 (romTable.idxOf b)))
    rw [encRom, BitVec.toNat_ofNat, Nat.mod_eq_of_lt hlt, List.getD_eq_getElem?_getD, List.getElem?_eq_getElem hlt, hget]
    rfl
  · rfl

end Sys2Proof.Machine
end

