-- ==== Sys2Proof/Laws/Commands.lean ====
section
/-! SUPPORT. Everything a command can do, said once: why it fails (spec/60_exceptions.md R231) and, where it does not,
the state before `done`. Later proofs cite `exec_cases` and the equations below it instead of unfolding a meaning. -/

namespace Sys2Proof.Machine

/-- The causes of R231, in R235's order: command i in state s raises e. -/
inductive RaiseCause (s : State) : Instr → ErrorCode → Prop
  | hasbitsField (f k : Nat) : 8 ≤ f → RaiseCause s (.hasbits f k) .field
  | extractField (f k : Nat) : 8 ≤ f → RaiseCause s (.extract f k) .field
  | appendField (f k : Nat) : 8 ≤ f → RaiseCause s (.append f k) .field
  | frestoreField (f : Nat) : 8 ≤ f → RaiseCause s (.frestore f) .field
  | fclearField (f : Nat) : 8 ≤ f → RaiseCause s (.fclear f) .field
  | maskOperand (k : Nat) : 64 < k → RaiseCause s (.mask k) .operand
  | extractOperand (f : Fin 8) (k : Nat) : 64 < k → RaiseCause s (.extract f k) .operand
  | appendOperand (f : Fin 8) (k : Nat) : 64 < k ∨ 2 ^ k ≤ s.arg.toNat → RaiseCause s (.append f k) .operand
  | symoutOperand (v : Nat) : 31 < v → RaiseCause s (.symout v) .operand
  | extractUnderflow (f : Fin 8) (k : Nat) : k ≤ 64 → (s.field f).rem.toNat < k → RaiseCause s (.extract f k) .underflow
  | appendUnderflow (f : Fin 8) (k : Nat) : k ≤ 64 → s.arg.toNat < 2 ^ k → (s.field f).rem.toNat < k →
      RaiseCause s (.append f k) .underflow
  | checklenLength : s.tlen.toNat ≠ s.expLen → RaiseCause s .checklen .length
  | decodeLength : s.tlen.toNat ≠ s.expLen → RaiseCause s .decode .length

/-- The effect of a command that does not fail: u is the state before `done` records success. -/
inductive CommandEffect (s : State) : Instr → State → Prop
  | nop : CommandEffect s .nop s
  | clrstat : CommandEffect s .clrstat { s with status := s.status.cleared, lenobs := 0, lenexp := 0 }
  | mask (k : Nat) : k ≤ 64 → CommandEffect s (.mask k) { s with result := trunc64 (Machine.mask k) }
  | hasbits (f : Fin 8) (k : Nat) :
      CommandEffect s (.hasbits f k) { s with status := s.status.setHb ((s.field f).hasBits k) }
  | extract (f : Fin 8) (k : Nat) : k ≤ 64 → k ≤ (s.field f).rem.toNat →
      CommandEffect s (.extract f k)
        { s.setField f ((s.field f).dropFront k) with result := trunc64 ((s.field f).front k) }
  | append (f : Fin 8) (k : Nat) : k ≤ 64 → s.arg.toNat < 2 ^ k → k ≤ (s.field f).rem.toNat →
      CommandEffect s (.append f k) (s.setField f ((s.field f).pushBack k s.arg.toNat))
  | frestore (f : Fin 8) : CommandEffect s (.frestore f) (s.setField f (s.field f).restored)
  | fclear (f : Fin 8) : CommandEffect s (.fclear f) (s.setField f { (s.field f).restored with value := 0 })
  | symout (v : Nat) : v ≤ 31 → CommandEffect s (.symout v) { s with result := (encRom (BitVec.ofNat 5 v)).setWidth 64 }
  | symin (b : Byte) : CommandEffect s (.symin b) { s with result := (decRom b).setWidth 64 }
  | encode : CommandEffect s .encode
      { s with
        token := s.token.writeFrom 0 ((encodeSymbols s.schema).map encRom)
        tlen := BitVec.ofNat 16 (encodeSymbols s.schema).length
        fields := s.restoredFields }
  | checklen : s.tlen.toNat = s.expLen → CommandEffect s .checklen s
  | decode : s.tlen.toNat = s.expLen → CommandEffect s .decode { s with fields := s.decodedFields }

/-- ARG fits in k bits exactly when it is not above the mask (R140). -/
theorem mask_lt_iff (a k : Nat) : a > mask k ↔ 2 ^ k ≤ a := by
  have := Nat.two_pow_pos k
  rw [mask_eq]; omega

theorem withField_of_ge {f : Nat} (h : 8 ≤ f) (s : State) (act : Fin Config.maxFields → Result) :
    withField f s act = .next (s.raise .field) := by
  rw [withField, fieldIndex?_of_ge h]

theorem withField_val (f : Fin Config.maxFields) (s : State) (act : Fin Config.maxFields → Result) :
    withField f.val s act = act f := by
  rw [withField, fieldIndex?_val]

/-- A command fails with its cause's error and nothing else. -/
theorem exec_of_cause {s : State} {i : Instr} {e : ErrorCode} (h : RaiseCause s i e) : exec i s = .next (s.raise e) := by
  cases h with
  | hasbitsField f k h => exact withField_of_ge h _ _
  | extractField f k h => exact withField_of_ge h _ _
  | appendField f k h => exact withField_of_ge h _ _
  | frestoreField f h => exact withField_of_ge h _ _
  | fclearField f h => exact withField_of_ge h _ _
  | maskOperand k h => exact if_pos h
  | extractOperand f k h => rw [exec, execExtract, withField_val]; exact if_pos h
  | appendOperand f k h =>
    rw [exec, execAppend, withField_val]
    by_cases hk : 64 < k
    · exact if_pos hk
    · rw [if_neg (show ¬ k > Config.widthMax from hk), if_pos ((mask_lt_iff _ _).mpr (h.resolve_left hk))]
  | symoutOperand v h => exact if_pos h
  | extractUnderflow f k hk h =>
    rw [exec, execExtract, withField_val, if_neg (show ¬ k > Config.widthMax from Nat.not_lt.mpr hk), if_pos h]
  | appendUnderflow f k hk ha h =>
    rw [exec, execAppend, withField_val, if_neg (show ¬ k > Config.widthMax from Nat.not_lt.mpr hk),
      if_neg (mt (mask_lt_iff _ _).mp (Nat.not_le.mpr ha)), if_pos h]
  | checklenLength h => exact if_pos h
  | decodeLength h => exact if_pos h

/-- A command that does not fail has its effect and records success. -/
theorem exec_of_effect {s u : State} {i : Instr} (h : CommandEffect s i u) : exec i s = .next u.done := by
  cases h with
  | nop => rfl
  | clrstat => rfl
  | mask k h => exact if_neg (Nat.not_lt.mpr h)
  | hasbits f k => exact withField_val f s _
  | extract f k hk h =>
    rw [exec, execExtract, withField_val, if_neg (show ¬ k > Config.widthMax from Nat.not_lt.mpr hk), if_neg (Nat.not_lt.mpr h)]
    rfl
  | append f k hk ha h =>
    rw [exec, execAppend, withField_val, if_neg (show ¬ k > Config.widthMax from Nat.not_lt.mpr hk),
      if_neg (mt (mask_lt_iff _ _).mp (Nat.not_le.mpr ha)), if_neg (Nat.not_lt.mpr h)]
  | frestore f => exact withField_val f s _
  | fclear f => exact withField_val f s _
  | symout v h => exact if_neg (Nat.not_lt.mpr h)
  | symin b => rfl
  | encode => rfl
  | checklen h => exact if_neg (not_not.mpr h)
  | decode h => exact if_neg (not_not.mpr h)

/-- Every command either fails for a cause of R231 or has its effect. -/
theorem cause_or_effect (i : Instr) (s : State) : (∃ e, RaiseCause s i e) ∨ ∃ u, CommandEffect s i u := by
  have field : ∀ f : Nat, 8 ≤ f ∨ ∃ g : Fin 8, f = g.val := fun f =>
    (Nat.lt_or_ge f 8).elim (fun h => .inr ⟨⟨f, h⟩, rfl⟩) .inl
  cases i with
  | nop => exact .inr ⟨_, .nop⟩
  | mask k => exact (Nat.lt_or_ge 64 k).elim (fun h => .inl ⟨_, .maskOperand k h⟩) fun h => .inr ⟨_, .mask k h⟩
  | hasbits f k =>
    rcases field f with h | ⟨g, rfl⟩
    · exact .inl ⟨_, .hasbitsField f k h⟩
    · exact .inr ⟨_, .hasbits g k⟩
  | extract f k =>
    rcases field f with h | ⟨g, rfl⟩
    · exact .inl ⟨_, .extractField f k h⟩
    · rcases Nat.lt_or_ge 64 k with hk | hk
      · exact .inl ⟨_, .extractOperand g k hk⟩
      · exact (Nat.lt_or_ge _ k).elim (fun h => .inl ⟨_, .extractUnderflow g k hk h⟩) fun h => .inr ⟨_, .extract g k hk h⟩
  | append f k =>
    rcases field f with h | ⟨g, rfl⟩
    · exact .inl ⟨_, .appendField f k h⟩
    · rcases Nat.lt_or_ge 64 k with hk | hk
      · exact .inl ⟨_, .appendOperand g k (.inl hk)⟩
      · rcases Nat.lt_or_ge s.arg.toNat (2 ^ k) with ha | ha
        · exact (Nat.lt_or_ge _ k).elim (fun h => .inl ⟨_, .appendUnderflow g k hk ha h⟩)
            fun h => .inr ⟨_, .append g k hk ha h⟩
        · exact .inl ⟨_, .appendOperand g k (.inr ha)⟩
  | frestore f =>
    rcases field f with h | ⟨g, rfl⟩
    · exact .inl ⟨_, .frestoreField f h⟩
    · exact .inr ⟨_, .frestore g⟩
  | fclear f =>
    rcases field f with h | ⟨g, rfl⟩
    · exact .inl ⟨_, .fclearField f h⟩
    · exact .inr ⟨_, .fclear g⟩
  | symout v => exact (Nat.lt_or_ge 31 v).elim (fun h => .inl ⟨_, .symoutOperand v h⟩) fun h => .inr ⟨_, .symout v h⟩
  | symin b => exact .inr ⟨_, .symin b⟩
  | encode => exact .inr ⟨_, .encode⟩
  | checklen =>
    by_cases h : s.tlen.toNat = s.expLen
    · exact .inr ⟨_, .checklen h⟩
    · exact .inl ⟨_, .checklenLength h⟩
  | decode =>
    by_cases h : s.tlen.toNat = s.expLen
    · exact .inr ⟨_, .decode h⟩
    · exact .inl ⟨_, .decodeLength h⟩
  | clrstat => exact .inr ⟨_, .clrstat⟩

/-- What a command that answers t can have done. -/
theorem exec_cases {i : Instr} {s t : State} (h : exec i s = .next t) :
    (∃ e, RaiseCause s i e ∧ t = s.raise e) ∨ ∃ u, CommandEffect s i u ∧ t = u.done := by
  rcases cause_or_effect i s with ⟨e, he⟩ | ⟨u, hu⟩
  · rw [exec_of_cause he] at h
    exact .inl ⟨e, he, (Host.Outcome.next.inj h).symm⟩
  · rw [exec_of_effect hu] at h
    exact .inr ⟨u, hu, (Host.Outcome.next.inj h).symm⟩

/-- exec itself never raises E_ILLEGAL: only an undecodable word does. -/
theorem RaiseCause.ne_illegal {s : State} {i : Instr} {e : ErrorCode} (h : RaiseCause s i e) : e ≠ .illegal := by
  cases h <;> decide

end Sys2Proof.Machine
end

