-- ==== Sys2Proof/Laws/Decode.lean ====
section
/-! SUPPORT. The command word's fields and the decoder's one inversion lemma. -/

namespace Sys2Proof

/-! ## The fields of a word as numbers (R7, R90) -/

theorem upperField_toNat (c : Word) : (upperField c).toNat = c.toNat / 2 ^ 32 := by
  have := c.isLt
  simp only [upperField, BitVec.extractLsb'_toNat, Nat.shiftRight_eq_div_pow]
  omega

theorem opField_toNat (c : Word) : (opField c).toNat = c.toNat / 2 ^ 24 % 2 ^ 8 := by
  simp [opField, BitVec.extractLsb'_toNat, Nat.shiftRight_eq_div_pow]

theorem fField_toNat (c : Word) : (fField c).toNat = c.toNat / 2 ^ 20 % 2 ^ 4 := by
  simp [fField, BitVec.extractLsb'_toNat, Nat.shiftRight_eq_div_pow]

theorem immField_toNat (c : Word) : (immField c).toNat = c.toNat / 2 ^ 12 % 2 ^ 8 := by
  simp [immField, BitVec.extractLsb'_toNat, Nat.shiftRight_eq_div_pow]

theorem rsvField_toNat (c : Word) : (rsvField c).toNat = c.toNat % 2 ^ 12 := by
  simp [rsvField, BitVec.extractLsb'_toNat]

theorem commandWord_toNat (op : BitVec 8) (f : BitVec 4) (imm : BitVec 8) :
    (commandWord op f imm).toNat = op.toNat * 2 ^ 24 + f.toNat * 2 ^ 20 + imm.toNat * 2 ^ 12 := by
  have h1 := op.isLt
  have h2 := f.isLt
  have h3 := imm.isLt
  have hor : ∀ a b n : Nat, b < 2 ^ n → (a <<< n) ||| b = a * 2 ^ n + b := by
    intro a b n hb
    rw [Nat.shiftLeft_eq, Nat.mul_comm, ← Nat.two_pow_add_eq_or_of_lt hb]
  simp only [commandWord, BitVec.toNat_append, BitVec.toNat_ofNat]
  rw [hor _ _ _ (by simp), hor _ _ _ h3, hor _ _ _ h2, hor _ _ _ h1]
  omega

@[simp] theorem upperField_commandWord (op : BitVec 8) (f : BitVec 4) (imm : BitVec 8) :
    upperField (commandWord op f imm) = 0 := by
  apply BitVec.eq_of_toNat_eq
  rw [upperField_toNat, commandWord_toNat]
  have h1 := op.isLt; have h2 := f.isLt; have h3 := imm.isLt
  have h0 : (0 : BitVec 32).toNat = 0 := rfl
  have h0' : (0 : BitVec 12).toNat = 0 := rfl
  omega

@[simp] theorem opField_commandWord (op : BitVec 8) (f : BitVec 4) (imm : BitVec 8) :
    opField (commandWord op f imm) = op := by
  apply BitVec.eq_of_toNat_eq
  rw [opField_toNat, commandWord_toNat]
  have h1 := op.isLt; have h2 := f.isLt; have h3 := imm.isLt
  omega

@[simp] theorem fField_commandWord (op : BitVec 8) (f : BitVec 4) (imm : BitVec 8) :
    fField (commandWord op f imm) = f := by
  apply BitVec.eq_of_toNat_eq
  rw [fField_toNat, commandWord_toNat]
  have h1 := op.isLt; have h2 := f.isLt; have h3 := imm.isLt
  omega

@[simp] theorem immField_commandWord (op : BitVec 8) (f : BitVec 4) (imm : BitVec 8) :
    immField (commandWord op f imm) = imm := by
  apply BitVec.eq_of_toNat_eq
  rw [immField_toNat, commandWord_toNat]
  have h1 := op.isLt; have h2 := f.isLt; have h3 := imm.isLt
  omega

@[simp] theorem rsvField_commandWord (op : BitVec 8) (f : BitVec 4) (imm : BitVec 8) :
    rsvField (commandWord op f imm) = 0 := by
  apply BitVec.eq_of_toNat_eq
  rw [rsvField_toNat, commandWord_toNat]
  have h1 := op.isLt; have h2 := f.isLt; have h3 := imm.isLt
  have h0 : (0 : BitVec 32).toNat = 0 := rfl
  have h0' : (0 : BitVec 12).toNat = 0 := rfl
  omega

/-- A word with UPPER = 0 and RSV = 0 is its three other fields. -/
theorem commandWord_fields {c : Word} (hu : upperField c = 0) (hr : rsvField c = 0) :
    commandWord (opField c) (fField c) (immField c) = c := by
  apply BitVec.eq_of_toNat_eq
  have h1 := congrArg BitVec.toNat hu
  have h2 := congrArg BitVec.toNat hr
  rw [upperField_toNat] at h1
  rw [rsvField_toNat] at h2
  rw [commandWord_toNat, opField_toNat, fField_toNat, immField_toNat]
  have h0 : (0 : BitVec 32).toNat = 0 := rfl
  have h0' : (0 : BitVec 12).toNat = 0 := rfl
  have := c.isLt
  omega

/-! ## The opcode map -/

@[simp] theorem Opcode.ofByte?_byte (op : Opcode) : Opcode.ofByte? op.byte = some op := by cases op <;> rfl

/-- The map names an opcode only for its own byte. -/
theorem Opcode.byte_of_ofByte? {b : BitVec 8} {op : Opcode} (h : Opcode.ofByte? b = some op) : b = op.byte := by
  revert b op; decide

@[simp] theorem Opcode.opcode_instr (op : Opcode) (f : BitVec 4) (imm : BitVec 8) :
    (op.instr f imm).opcode = op := by cases op <;> rfl

theorem Opcode.wellFormed_instr (op : Opcode) (f : BitVec 4) (imm : BitVec 8) : (op.instr f imm).WellFormed := by
  have h1 := f.isLt
  have h2 := imm.isLt
  cases op <;> simp [Opcode.instr, Instr.WellFormed, Instr.wellFormed, fitsF, fitsImm] <;> omega

/-! ## The decoder -/

/-- Everything a decoded word satisfies (R95). -/
theorem decode_ok {c : Word} {i : Instr} (h : decode c = .ok i) :
    ∃ op : Opcode, opField c = op.byte ∧ upperField c = 0 ∧ rsvField c = 0 ∧ (op.usesF = false → fField c = 0) ∧
      (op.usesImm = false → immField c = 0) ∧ i = op.instr (fField c) (immField c) := by
  unfold decode at h
  split at h
  · cases h
  · next hu =>
    split at h
    · cases h
    · next op hop =>
      split at h
      · cases h
      · next hr =>
        split at h
        · cases h
        · next hf =>
          split at h
          · cases h
          · next himm =>
            injection h with h
            simp only [ne_eq, Decidable.not_not, not_and] at hu hr hf himm
            exact ⟨op, Opcode.byte_of_ofByte? hop, hu, hr, hf, himm, h.symm⟩

/-- Every word with a legal row decodes to that row's command (R93, R95). -/
theorem decode_of_fields {c : Word} {op : Opcode} (hop : opField c = op.byte) (hu : upperField c = 0)
    (hr : rsvField c = 0) (hf : op.usesF = false → fField c = 0) (himm : op.usesImm = false → immField c = 0) :
    decode c = .ok (op.instr (fField c) (immField c)) := by
  unfold decode
  rw [if_neg (by simp [hu]), hop, Opcode.ofByte?_byte]
  simp only
  rw [if_neg (by simp [hr]), if_neg (by simpa using hf), if_neg (by simpa using himm)]

end Sys2Proof
end

