-- ==== Sys2Proof/Laws/PerInstr.lean ====
section
/-! SUPPORT. Statements made per instruction, one lemma per constructor. MatchesRow: a well-formed command's word
matches its own row of the opcode table (spec/30_encoding.md R93). -/

namespace Sys2Proof.Laws.MatchesRow

/-- The encoded command is legal for its row. -/
def Statement (i : Instr) : Prop := i.WellFormed → i.opcode.matchesWord (Sys2Proof.encode i) = true

/-- R93's match and mask columns, by the fields they cover: OP always, F and IMM where they must be 0, RSV always. -/
theorem row_eq (op : Opcode) : op.row =
    (op.byte ++ 0#4 ++ 0#8 ++ 0#12,
     0xFF#8 ++ (if op.usesF then 0#4 else 0xF#4) ++ (if op.usesImm then 0#8 else 0xFF#8) ++ 0xFFF#12) := by
  cases op <;> rfl

/-- The low half of a command word is its four fields (R90). -/
theorem low_commandWord (op : BitVec 8) (f : BitVec 4) (imm : BitVec 8) :
    (commandWord op f imm).extractLsb' 0 32 = op ++ f ++ imm ++ 0#12 := by
  have hw := commandWord_toNat op f imm
  apply BitVec.eq_of_toNat_eq
  have h1 := op.isLt; have h2 := f.isLt; have h3 := imm.isLt
  have hor : ∀ a b n : Nat, b < 2 ^ n → (a <<< n) ||| b = a * 2 ^ n + b := by
    intro a b n hb
    rw [Nat.shiftLeft_eq, Nat.mul_comm, ← Nat.two_pow_add_eq_or_of_lt hb]
  simp only [BitVec.extractLsb'_toNat, hw, BitVec.toNat_append, BitVec.toNat_ofNat, Nat.shiftRight_zero]
  rw [hor _ _ _ (by simp), hor _ _ _ h3, hor _ _ _ h2]
  omega

/-- A word of a row's OP byte, with its unused fields 0, matches the row. -/
theorem of_fields (op : Opcode) (f : BitVec 4) (imm : BitVec 8) (hf : op.usesF = false → f = 0)
    (himm : op.usesImm = false → imm = 0) : op.matchesWord (commandWord op.byte f imm) = true := by
  have h8 : op.byte &&& 0xFF#8 = op.byte := BitVec.and_allOnes
  have h4 : f &&& (if op.usesF then 0#4 else 0xF#4) = 0#4 := by
    cases hu : op.usesF
    · rw [hf hu]; rfl
    · simp
  have hi : imm &&& (if op.usesImm then 0#8 else 0xFF#8) = 0#8 := by
    cases hu : op.usesImm
    · rw [himm hu]; rfl
    · simp
  rw [Opcode.matchesWord, upperField_commandWord, low_commandWord, row_eq, BitVec.and_append, BitVec.and_append,
    BitVec.and_append, h8, h4, hi]
  simp

theorem nop : Statement .nop := fun _ => of_fields .nop _ _ (fun _ => rfl) fun _ => rfl
theorem mask (k : Nat) : Statement (.mask k) := fun _ => of_fields .mask _ _ (fun _ => rfl) fun h => by cases h
theorem hasbits (f k : Nat) : Statement (.hasbits f k) :=
  fun _ => of_fields .hasbits _ _ (fun h => by cases h) fun h => by cases h
theorem extract (f k : Nat) : Statement (.extract f k) :=
  fun _ => of_fields .extract _ _ (fun h => by cases h) fun h => by cases h
theorem append (f k : Nat) : Statement (.append f k) :=
  fun _ => of_fields .append _ _ (fun h => by cases h) fun h => by cases h
theorem frestore (f : Nat) : Statement (.frestore f) := fun _ => of_fields .frestore _ _ (fun h => by cases h) fun _ => rfl
theorem fclear (f : Nat) : Statement (.fclear f) := fun _ => of_fields .fclear _ _ (fun h => by cases h) fun _ => rfl
theorem symout (v : Nat) : Statement (.symout v) := fun _ => of_fields .symout _ _ (fun _ => rfl) fun h => by cases h
theorem symin (b : Byte) : Statement (.symin b) := fun _ => of_fields .symin _ _ (fun _ => rfl) fun h => by cases h
theorem encode : Statement .encode := fun _ => of_fields .encode _ _ (fun _ => rfl) fun _ => rfl
theorem checklen : Statement .checklen := fun _ => of_fields .checklen _ _ (fun _ => rfl) fun _ => rfl
theorem decode : Statement .decode := fun _ => of_fields .decode _ _ (fun _ => rfl) fun _ => rfl
theorem clrstat : Statement .clrstat := fun _ => of_fields .clrstat _ _ (fun _ => rfl) fun _ => rfl

end Sys2Proof.Laws.MatchesRow
end

