-- ==== Sys2Proof/Laws/Port.lean ====
section
/-! SUPPORT. The port: which offsets name a register or a token byte, and everything a step can do. -/

namespace Sys2Proof.Machine

@[simp] theorem Reg.at?_offset (r : Reg) : Reg.at? r.offset = some r := by
  cases r with
  | fvalue f => revert f; decide
  | fctrl f => revert f; decide
  | _ => rfl

/-- An offset names the register of R61's table that lies there. -/
theorem Reg.offset_of_at? {off : Offset} {r : Reg} (h : Reg.at? off = some r) : r.offset = off := by
  have table : ∀ n : Fin 256, ∀ r, Reg.at? (BitVec.ofNat 12 n.val) = some r → r.offset = BitVec.ofNat 12 n.val := by
    intro n
    have : ∀ n : Fin 256, (Reg.at? (BitVec.ofNat 12 n.val)).all fun r => r.offset == BitVec.ofNat 12 n.val := by decide +kernel
    intro r hr
    have := this n
    rw [hr] at this
    simpa using this
  by_cases hlt : off.toNat < 256
  · have hoff : BitVec.ofNat 12 off.toNat = off := by simp
    have := table ⟨off.toNat, hlt⟩ r
    simp only [hoff] at this
    exact this h
  · have hnone : Reg.at? off = none := by
      unfold Reg.at?
      split <;> first | omega | skip
      unfold fieldRegAt?
      rw [if_neg (by omega), fieldIndex?_of_ge (by simp only [Config.maxFields]; omega)]
    rw [hnone] at h; cases h

theorem tokenIndex?_eq_some {off : Offset} {i : Nat} :
    tokenIndex? off = some i ↔ off.toNat = 0x100 + i ∧ i < Config.tokenBytes := by
  unfold tokenIndex?
  split
  · next h => simp only [Option.some.injEq]; omega
  · next h => simp only [reduceCtorEq, false_iff]; omega

/-! ### Taking an input -/

@[simp] theorem State.taking_fields (s : State) (rest : List PortInput) : (s.taking rest).fields = s.fields := rfl
@[simp] theorem State.taking_fcount (s : State) (rest : List PortInput) : (s.taking rest).fcount = s.fcount := rfl
@[simp] theorem State.taking_arg (s : State) (rest : List PortInput) : (s.taking rest).arg = s.arg := rfl
@[simp] theorem State.taking_result (s : State) (rest : List PortInput) : (s.taking rest).result = s.result := rfl
@[simp] theorem State.taking_status (s : State) (rest : List PortInput) : (s.taking rest).status = s.status := rfl
@[simp] theorem State.taking_tlen (s : State) (rest : List PortInput) : (s.taking rest).tlen = s.tlen := rfl
@[simp] theorem State.taking_lenobs (s : State) (rest : List PortInput) : (s.taking rest).lenobs = s.lenobs := rfl
@[simp] theorem State.taking_lenexp (s : State) (rest : List PortInput) : (s.taking rest).lenexp = s.lenexp := rfl
@[simp] theorem State.taking_token (s : State) (rest : List PortInput) : (s.taking rest).token = s.token := rfl
@[simp] theorem State.taking_inputs (s : State) (rest : List PortInput) : (s.taking rest).inputs = rest := rfl
@[simp] theorem State.taking_response (s : State) (rest : List PortInput) : (s.taking rest).response = none := rfl

theorem step_idle {s : State} (h : s.inputs = []) : step s = .next s := by rw [step, takeInput, h]

theorem step_input {s : State} {a : PortInput} {rest : List PortInput} (h : s.inputs = a :: rest) :
    step s = perform a (s.taking rest) := by rw [step, takeInput, h]

/-- A token offset is 0x100 + i for its index i (R62). -/
theorem offset_of_tokenIndex? {off : Offset} {i : Nat} (h : tokenIndex? off = some i) :
    off = BitVec.ofNat 12 (0x100 + i) ∧ i < Config.tokenBytes := by
  obtain ⟨h1, h2⟩ := tokenIndex?_eq_some.mp h
  refine ⟨BitVec.eq_of_toNat_eq ?_, h2⟩
  rw [BitVec.toNat_ofNat, ← h1, Nat.mod_eq_of_lt off.isLt]

/-- What the registers read as does not depend on the pending inputs. -/
@[simp] theorem State.readReg_taking (s : State) (rest : List PortInput) (r : Reg) :
    (s.taking rest).readReg r = s.readReg r := by cases r <;> rfl

/-- A step that answers t: idling, a register or token read, a command, a register or token write, or a reset. -/
theorem step_cases {s t : State} (h : step s = .next t) :
    (s.inputs = [] ∧ t = s) ∨ ∃ rest,
      (∃ r, s.inputs = .regRead r.offset :: rest ∧
        t = { s.taking rest with response := some (.reg (s.readReg r)) }) ∨
      (∃ i, i < Config.tokenBytes ∧ s.inputs = .tokRead (BitVec.ofNat 12 (0x100 + i)) :: rest ∧
        t = { s.taking rest with response := some (.tok (s.token.read i)) }) ∨
      (∃ c, s.inputs = .regWrite Reg.cmd.offset c :: rest ∧ runCommand c (s.taking rest) = .next t) ∨
      (∃ r v, r ≠ .cmd ∧ s.inputs = .regWrite r.offset v :: rest ∧ t = (s.taking rest).writeReg r v) ∨
      (∃ i b, i < Config.tokenBytes ∧ s.inputs = .tokWrite (BitVec.ofNat 12 (0x100 + i)) b :: rest ∧
        t = { s.taking rest with token := s.token.write i b }) ∨
      (s.inputs = .reset :: rest ∧ t = { State.reset with inputs := rest }) := by
  cases hin : s.inputs with
  | nil => rw [step_idle hin] at h; exact .inl ⟨rfl, (Host.Outcome.next.inj h).symm⟩
  | cons a rest =>
    rw [step_input hin] at h
    refine .inr ⟨rest, ?_⟩
    cases a with
    | regRead off =>
      simp only [perform, regRead] at h
      split at h
      · next r hr =>
        refine .inl ⟨r, by rw [Reg.offset_of_at? hr], ?_⟩
        rw [← s.readReg_taking rest r]
        exact (Host.Outcome.next.inj h).symm
      · cases h
    | regWrite off v =>
      simp only [perform, regWrite] at h
      split at h
      · next hr => exact .inr (.inr (.inl ⟨v, by rw [Reg.offset_of_at? hr], h⟩))
      · next r hne hr =>
        refine .inr (.inr (.inr (.inl ⟨r, v, hne, ?_, (Host.Outcome.next.inj h).symm⟩)))
        rw [Reg.offset_of_at? hr]
      · cases h
    | tokRead off =>
      simp only [perform, tokRead] at h
      split at h
      · next i hi =>
        obtain ⟨rfl, hlt⟩ := offset_of_tokenIndex? hi
        exact .inr (.inl ⟨i, hlt, rfl, (Host.Outcome.next.inj h).symm⟩)
      · cases h
    | tokWrite off b =>
      simp only [perform, tokWrite] at h
      split at h
      · next i hi =>
        obtain ⟨rfl, hlt⟩ := offset_of_tokenIndex? hi
        exact .inr (.inr (.inr (.inr (.inl ⟨i, b, hlt, rfl, (Host.Outcome.next.inj h).symm⟩))))
      · cases h
    | reset =>
      exact .inr (.inr (.inr (.inr (.inr ⟨rfl, (Host.Outcome.next.inj h).symm⟩))))

/-- A run of n + 1 steps is a run of n steps and one more. -/
theorem run_succ (n : Nat) : ∀ {a b : State}, Host.Core.run core n a = .next b →
    Host.Core.run core (n + 1) a = step b := by
  induction n with
  | zero =>
    intro a b h
    have hab : a = b := Host.Outcome.next.inj h
    subst hab
    simp only [Host.Core.run]
    show _ = core.step a
    cases core.step a <;> rfl
  | succ n ih =>
    intro a b h
    simp only [Host.Core.run] at h ⊢
    cases hs : core.step a with
    | next a' =>
      rw [hs] at h
      have hrun := ih (a := a') (b := b) h
      simp only [Host.Core.run] at hrun
      exact hrun
    | fault x => rw [hs] at h; cases h
    | refused r => rw [hs] at h; cases h

/-- What a command word does: its command's exec, or E_ILLEGAL. -/
theorem runCommand_cases (c : Word) (s : State) :
    (∃ i, decode c = .ok i ∧ runCommand c s = exec i s) ∨
      (∃ r, decode c = .error r ∧ runCommand c s = .next (s.raise .illegal)) := by
  unfold runCommand
  cases h : decode c with
  | ok i => exact .inl ⟨i, rfl, rfl⟩
  | error r => exact .inr ⟨r, rfl, rfl⟩

end Sys2Proof.Machine
end

