-- ==== Sys2Proof/Tests/Slice0.lean ====
section
/-! SUPPORT. Tests of the model, their expected results taken from spec/95_test_vectors.md (named in each comment) or
from a rule's own example, and for every statement of the provers a witness that its hypotheses can be met together. -/

namespace Sys2Proof.Tests

open Sys2Proof.Machine Sys2Proof.Claims

/-! ## Helpers -/

/-- The state a command word leaves, if it completes. -/
def ran (c : Word) (s : State) : Option State :=
  match runCommand c s with
  | .next t => some t
  | _ => none

/-- The state one access leaves, if it completes. -/
def took (a : PortInput) (s : State) : Option State :=
  match step { s with inputs := [a] } with
  | .next t => some t
  | _ => none

/-- The reset state with field f replaced. -/
def withFld (f : Fin 8) (value : Word) (width rem : BitVec 7) : State :=
  State.reset.setField f { value := value, width := width, rem := rem }

/-- The reset state with the first two fields replaced and FCOUNT = 2. -/
def twoFields (v0 : Word) (w0 : BitVec 7) (v1 : Word) (w1 : BitVec 7) : State :=
  { (withFld 0 v0 w0 w0).setField 1 { value := v1, width := w1, rem := w1 } with fcount := 2 }

/-- Fields of 3 and 4 bits with stale values, and a two-byte token. -/
def twoBytes (b0 b1 : Byte) : State :=
  { twoFields 0xABC 3 0xABC 4 with token := (Memory.write [] 0 b0).write 1 b1, tlen := 2 }

/-- The reset state with one access pending. -/
def pending (a : PortInput) : State := { State.reset with inputs := [a] }

/-! ## WellFormed refuses what has no encoding -/

theorem test_wf_mask : (Instr.mask 256).wellFormed = false ∧ (Instr.mask 255).wellFormed = true := by decide
theorem test_wf_hasbits_f : (Instr.hasbits 16 0).wellFormed = false ∧ (Instr.hasbits 15 255).wellFormed = true := by decide
theorem test_wf_hasbits_k : (Instr.hasbits 0 256).wellFormed = false := by decide
theorem test_wf_extract : (Instr.extract 16 0).wellFormed = false ∧ (Instr.extract 0 256).wellFormed = false := by decide
theorem test_wf_append : (Instr.append 16 0).wellFormed = false ∧ (Instr.append 0 256).wellFormed = false := by decide
theorem test_wf_frestore : (Instr.frestore 16).wellFormed = false ∧ (Instr.frestore 15).wellFormed = true := by decide
theorem test_wf_fclear : (Instr.fclear 16).wellFormed = false ∧ (Instr.fclear 15).wellFormed = true := by decide
theorem test_wf_symout : (Instr.symout 256).wellFormed = false ∧ (Instr.symout 255).wellFormed = true := by decide

/-! ## Decoding: words written out bit by bit from R90's layout UPPER, OP, F, IMM, RSV and R93's OP column -/

theorem test_decode_nop : decode (0#32 ++ 0b00000000#8 ++ 0b0000#4 ++ 0b00000000#8 ++ 0#12) = .ok .nop := by rfl
theorem test_decode_mask : decode (0#32 ++ 0b00000001#8 ++ 0b0000#4 ++ 0b01000000#8 ++ 0#12) = .ok (.mask 64) := by rfl
theorem test_decode_hasbits : decode (0#32 ++ 0b00010000#8 ++ 0b0010#4 ++ 0b00000101#8 ++ 0#12) = .ok (.hasbits 2 5) := by rfl
theorem test_decode_extract : decode (0#32 ++ 0b00010001#8 ++ 0b0111#4 ++ 0b10000001#8 ++ 0#12) = .ok (.extract 7 129) := by rfl
theorem test_decode_append : decode (0#32 ++ 0b00010010#8 ++ 0b0011#4 ++ 0b00000110#8 ++ 0#12) = .ok (.append 3 6) := by rfl
theorem test_decode_frestore : decode (0#32 ++ 0b00010011#8 ++ 0b0100#4 ++ 0b00000000#8 ++ 0#12) = .ok (.frestore 4) := by rfl
theorem test_decode_fclear : decode (0#32 ++ 0b00010100#8 ++ 0b1111#4 ++ 0b00000000#8 ++ 0#12) = .ok (.fclear 15) := by rfl
theorem test_decode_symout : decode (0#32 ++ 0b00100000#8 ++ 0b0000#4 ++ 0b00011111#8 ++ 0#12) = .ok (.symout 31) := by rfl
theorem test_decode_symin : decode (0#32 ++ 0b00100001#8 ++ 0b0000#4 ++ 0b01111010#8 ++ 0#12) = .ok (.symin 0x7A) := by rfl
theorem test_decode_encode : decode (0#32 ++ 0b00110000#8 ++ 0b0000#4 ++ 0b00000000#8 ++ 0#12) = .ok .encode := by rfl
theorem test_decode_checklen : decode (0#32 ++ 0b00110001#8 ++ 0b0000#4 ++ 0b00000000#8 ++ 0#12) = .ok .checklen := by rfl
theorem test_decode_decode : decode (0#32 ++ 0b00110010#8 ++ 0b0000#4 ++ 0b00000000#8 ++ 0#12) = .ok .decode := by rfl
theorem test_decode_clrstat : decode (0#32 ++ 0b00111111#8 ++ 0b0000#4 ++ 0b00000000#8 ++ 0#12) = .ok .clrstat := by rfl

/-- V-ILL-1 to V-ILL-6 and V-MASK-8: each cause of E_ILLEGAL, by name. -/
theorem test_decode_illegal :
    decode 0x1_3000_0000 = .error .upper ∧ decode 0x0200_0000 = .error .opcode ∧ decode 0x3000_0001 = .error .reserved ∧
    decode 0x0010_0000 = .error .unusedF ∧ decode 0x0000_1000 = .error .unusedImm ∧
    decode 0x3F00_1000 = .error .unusedImm ∧ decode 0x0110_5000 = .error .unusedF := by
  refine ⟨rfl, rfl, rfl, rfl, rfl, rfl, rfl⟩

/-- R99: (OP << 24) | (f << 20) | (imm << 12). -/
theorem test_encode_word : encode (.append 3 6) = 0x1230_6000 ∧ encode (.symin 0x7A) = 0x2107_A000 := by decide

theorem test_decodeTableWord : decodeTableWord 32 0x1120_5000 = some (.extract 2 5) ∧ decodeTableWord 32 0x0200_0000 = none := by
  decide

/-! ## One command on a small state -/

/-- V-MASK-5, V-MASK-6. -/
theorem test_mask : (ran 0x0104_0000 State.reset).map (fun t => (t.result, t.status.word)) = some (0xFFFF_FFFF_FFFF_FFFF, 0x00) := by decide
theorem test_mask_operand : (ran 0x0104_1000 { State.reset with result := 0xAA }).map (fun t => (t.result, t.status.word)) =
    some (0xAA, 0x36) := by decide

/-- V-HB-6, V-HB-9. -/
theorem test_hasbits : (ran 0x1024_0000 State.reset).map (fun t => t.status.word) = some 0x01 := by decide
theorem test_hasbits_field : (ran 0x1090_0000 { State.reset with status := { hb := true, err := false, sticky := false, ecode := 0 } }).map
    (fun t => t.status.word) = some 0x27 := by decide

/-- V-EXT-6, V-EXT-8. -/
theorem test_extract : (ran 0x1100_3000 (withFld 0 0xFFFF 10 10)).map (fun t => (t.result, t.field 0)) =
    some (7, { value := 0x7F, width := 10, rem := 7 }) := by decide
theorem test_extract_priority : (ran 0x1134_1000 (withFld 3 24 64 64)).map (fun t => (t.status.word, t.field 3)) =
    some (0x36, { value := 24, width := 64, rem := 64 }) := by decide

/-- V-APP-10, V-APP-11. -/
theorem test_append : (ran 0x1240_5000 { withFld 4 0xFFFF_FFFF_FFFF_FFFF 64 64 with arg := 31 }).map (fun t => t.field 4) =
    some { value := 0xFFFF_FFFF_FFFF_FFFF, width := 64, rem := 59 } := by decide
theorem test_append_priority : (ran 0x1200_4000 { withFld 0 9 10 2 with arg := 0xFF }).map (fun t => (t.status.word, t.field 0)) =
    some (0x36, { value := 9, width := 10, rem := 2 }) := by decide

/-- V-FR-1, V-FC-1, V-FC-2. -/
theorem test_frestore : (ran 0x1320_0000 (withFld 2 7 64 59)).map (fun t => t.field 2) =
    some { value := 7, width := 64, rem := 64 } := by decide
theorem test_fclear : (ran 0x1410_0000 (withFld 1 1 1 0)).map (fun t => t.field 1) =
    some { value := 0, width := 1, rem := 1 } := by decide
theorem test_fclear_field : (ran 0x14F0_0000 State.reset).map (fun t => t.status.word) = some 0x26 := by decide

/-- V-SO-3, V-SO-5. -/
theorem test_symout : (ran 0x2001_A000 State.reset).map (fun t => t.result) = some 0x32 := by decide
theorem test_symout_operand : (ran 0x2002_0000 State.reset).map (fun t => (t.result, t.status.word)) = some (0, 0x36) := by decide

/-- V-SI-2, V-SI-5. -/
theorem test_symin : (ran 0x2107_A000 State.reset).map (fun t => t.result) = some 25 := by decide
theorem test_symin_upper : (ran 0x2104_1000 { State.reset with result := 9 }).map (fun t => t.result) = some 0 := by decide

/-- V-ENC-1 and V-ENC-15: token `xy`, TLEN 2, the third byte kept. -/
theorem test_encode : (ran 0x3000_0000 { twoFields 5 3 15 4 with token := [(1, 0x7A), (2, 0x7A)] }).map
    (fun t => (t.token, t.tlen)) = some ([(0, 0x78), (1, 0x79), (2, 0x7A)], 2) := by decide
/-- V-ENC-4: one field of width 4 and value 0xFF gives `6`. -/
theorem test_encode_pad : (ran 0x3000_0000 { withFld 0 0xFF 4 1 with fcount := 1 }).map
    (fun t => (t.token, t.tlen, t.field 0)) = some ([(0, 0x36)], 1, { value := 0xFF, width := 4, rem := 4 }) := by decide

/-- V-CHK-1, V-CHK-2. -/
theorem test_checklen : (ran 0x3100_0000 { State.reset with tlen := 29 }).map (fun t => t.status.word) = some 0x00 := by decide
theorem test_checklen_length : (ran 0x3100_0000 { State.reset with tlen := 33 }).map (fun t => (t.status.word, t.lenobs, t.lenexp)) =
    some (0x56, 33, 29) := by decide

/-- V-DEC-2, V-DEC-4. -/
theorem test_decode_pad : (ran 0x3200_0000 (twoBytes 0x78 0x7A)).map (fun t => (t.field 0, t.field 1)) =
    some ({ value := 5, width := 3, rem := 3 }, { value := 15, width := 4, rem := 4 }) := by decide
theorem test_decode_lenient : (ran 0x3200_0000 (twoBytes 0x78 0x21)).map (fun t => ((t.field 0).value, (t.field 1).value)) =
    some (5, 12) := by decide

/-- V-CTL-3, V-CTL-4. -/
theorem test_nop : (ran 0 { State.reset with status := { hb := false, err := true, sticky := true, ecode := 4 } }).map
    (fun t => t.status.word) = some 0x04 := by decide
theorem test_clrstat : (ran 0x3F00_0000 { State.reset with
    status := { hb := false, err := true, sticky := true, ecode := 5 }, lenobs := 33, lenexp := 29 }).map
    (fun t => (t.status.word, t.lenobs, t.lenexp)) = some (0, 0, 0) := by decide

/-- V-PRI-1 and V-ILL-6. -/
theorem test_priority_field : (ran 0x1194_6000 State.reset).map (fun t => t.status.word) = some 0x26 := by decide
theorem test_illegal_clears_nothing : (ran 0x3F00_1000 { State.reset with lenobs := 33 }).map
    (fun t => (t.status.word, t.lenobs)) = some (0x16, 33) := by decide

/-! ## The port -/

/-- V-BUS-1, V-BUS-4: what reads return. -/
theorem test_read_id : (took (.regRead 0x000) State.reset).map (fun t => t.response) = some (some (.reg 0x0080_0801_4253_4D45)) := by decide
theorem test_read_fctrl : (took (.regRead 0x0A8) State.reset).map (fun t => t.response) = some (some (.reg 0x4040)) := by decide
/-- V-BUS-12, V-BUS-13. -/
theorem test_write_fctrl_ignored : (took (.regWrite 0x088 65) State.reset).map (fun t => (t.field 0).ctrlWord) = some 0x0A0A := by decide
theorem test_write_fctrl : (took (.regWrite 0x088 0x1_0003) State.reset).map (fun t => (t.field 0).ctrlWord) = some 0x0303 := by decide
/-- V-BUS-11, V-BUS-14. -/
theorem test_write_fcount_ignored : (took (.regWrite 0x028 9) State.reset).map (fun t => t.fcount) = some 5 := by decide
theorem test_write_tlen_saturates : (took (.regWrite 0x030 0x1_0000) State.reset).map (fun t => t.tlen) = some 0xFFFF := by decide
/-- V-BUS-5 to V-BUS-9. -/
theorem test_bus_errors : took (.regRead 0x058) State.reset = none ∧ took (.regRead 0x104) State.reset = none ∧
    took (.regRead 0x014) State.reset = none ∧ took (.tokRead 0x0FF) State.reset = none ∧
    took (.tokRead 0x180) State.reset = none := by decide
/-- R62: the last token byte; writing the blank byte unlists it. -/
theorem test_write_token : (took (.tokWrite 0x17F 0x41) State.reset).map (fun t => t.token) = some [(127, 0x41)] ∧
    (took (.tokWrite 0x17F 0x00) { State.reset with token := [(127, 0x41)] }).map (fun t => t.token) = some [] := by decide
/-- R22, R69: byte 0 of ID under the lane mapping is 'E'. -/
theorem test_byte_lane : byteLane Config.idWord 0 = 0x45 ∧ byteLane Config.idWord 3 = 0x42 := by decide

/-- V-EXT-9's word, placed by withFetchWord, is what the next step runs. -/
theorem test_withFetchWord : (match step (State.reset.withFetchWord 32 0x1180_1000) with
    | .next t => t.status.word
    | _ => 0) = 0x26 := by decide

/-! ## Program statements (R99, R100) -/

theorem test_asmText : asmText (.append 3 6) = "APPEND f3, 6" ∧ asmText (.symin 0x7A) = "SYMIN 0x7A" ∧
    asmText (.symout 31) = "SYMOUT 31" := by decide
theorem test_loadtok : (Statement.loadtok [0x78, 0x79]).accesses =
    [.tokWrite 0x100 0x78, .tokWrite 0x101 0x79, .regWrite 0x030 2] := by decide

/-! ## Witnesses: the hypotheses of each statement can be met -/

theorem witness_DecodeInvertsEncode :
    Instr.nop.WellFormed ∧ (Instr.mask 255).WellFormed ∧ (Instr.hasbits 15 255).WellFormed ∧ (Instr.extract 0 0).WellFormed ∧
    (Instr.append 7 64).WellFormed ∧ (Instr.frestore 15).WellFormed ∧ (Instr.fclear 8).WellFormed ∧
    (Instr.symout 32).WellFormed ∧ (Instr.symin 0xFF).WellFormed ∧ Instr.encode.WellFormed ∧ Instr.checklen.WellFormed ∧
    Instr.decode.WellFormed ∧ Instr.clrstat.WellFormed := by decide
theorem witness_EncodeInvertsDecode : decode 0x12F4_0000 = .ok (.append 15 64) := by rfl
theorem witness_OpcodeTableDecides : (decode 0x12F4_0000 = .ok (.append 15 64) ∧ (Instr.append 15 64).opcode = .append) ∧
    (0x12F4_0000#64).toNat < 2 ^ 32 ∧ (0x12F4_0000#64).toNat &&& 0xFF000FFF = 0x12000000 := by
  refine ⟨⟨rfl, rfl⟩, by decide⟩
/-- Each of R96's five cases alone, and a word of none. -/
theorem witness_IllegalWordsRaiseIllegal :
    (bitsOf 0x1_3000_0000 32 32 ≠ 0) ∧ (bitsOf 0x0200_0000 24 8 ∉ opValues) ∧ (bitsOf 0x3000_0001 0 12 ≠ 0) ∧
    (bitsOf 0x0110_5000 24 8 ∉ opsWithF ∧ bitsOf 0x0110_5000 20 4 ≠ 0) ∧
    (bitsOf 0x1320_1000 24 8 ∉ opsWithImm ∧ bitsOf 0x1320_1000 12 8 ≠ 0) ∧ ¬ IllegalBits 0x1320_0000 := by
  unfold IllegalBits; decide
theorem witness_OperandsAreTheirFields : decode 0x12F4_0000 = .ok (.append 15 64) ∧ decode 0x210F_F000 = .ok (.symin 0xFF) :=
  ⟨rfl, rfl⟩
theorem witness_HighFieldIndexRaisesField : (8 ≤ 8 ∧ 8 < 16 ∧ 0 < 256) ∧ (8 ≤ 15 ∧ 15 < 16 ∧ 255 < 256) := by decide

/-- A CMD write with a legal word, one with an illegal word, and a CMD read. -/
theorem witness_CmdWriteRunsItsCommand :
    ((pending (.regWrite 0x008 0x3000_0000)).inputs = [.regWrite 0x008 0x3000_0000] ∧ decode 0x3000_0000 = .ok .encode) ∧
    ((pending (.regWrite 0x008 0x0200_0000)).inputs = [.regWrite 0x008 0x0200_0000] ∧
      ∀ i, decode 0x0200_0000 ≠ .ok i) ∧
    (pending (.regRead 0x008)).inputs = [.regRead 0x008] := by
  refine ⟨⟨rfl, rfl⟩, ⟨rfl, fun i h => ?_⟩, rfl⟩
  have hd : decode 0x0200_0000 = .error .opcode := rfl
  rw [hd] at h; cases h
theorem witness_FetchWordRunsNext : (0x3F00_0000 < 2 ^ 32) ∧ decodeTableWord 32 0x3F00_0000 = some .clrstat := by decide
/-- The first and last refused and served offsets of each access kind. -/
theorem witness_RefusedAccessesAreBusErrors :
    (pending (.regRead 0x0F8)).inputs = [.regRead 0x0F8] ∧ (pending (.regRead 0x100)).inputs = [.regRead 0x100] ∧
    (pending (.regWrite 0x050 1)).inputs = [.regWrite 0x050 1] ∧ (pending (.regWrite 0x058 1)).inputs = [.regWrite 0x058 1] ∧
    (pending (.tokRead 0x100)).inputs = [.tokRead 0x100] ∧ (pending (.tokRead 0x0FF)).inputs = [.tokRead 0x0FF] ∧
    (pending (.tokWrite 0x17F 1)).inputs = [.tokWrite 0x17F 1] ∧ (pending (.tokWrite 0x180 1)).inputs = [.tokWrite 0x180 1] := by
  decide
theorem witness_ReadsHaveNoSideEffects :
    ((pending (.regRead 0x010)).inputs = [.regRead 0x010] ∧ ∃ t, step (pending (.regRead 0x010)) = .next t) ∧
    ((pending (.tokRead 0x17F)).inputs = [.tokRead 0x17F] ∧ ∃ t, step (pending (.tokRead 0x17F)) = .next t) :=
  ⟨⟨rfl, _, rfl⟩, ⟨rfl, _, rfl⟩⟩
theorem witness_ReadOnlyWritesAreIgnored :
    (pending (.regWrite 0x000 0xFF)).inputs = [.regWrite 0x000 0xFF] ∧ (pending (.regWrite 0x050 0xFF)).inputs = [.regWrite 0x050 0xFF] ∧
    (bitsOf 0x1_0003 0 7 = bitsOf 3 0 7 ∧
      (pending (.regWrite (BitVec.ofNat 12 (0x088 + 16 * 7)) 0x1_0003)).inputs = [.regWrite (BitVec.ofNat 12 (0x088 + 16 * 7)) 0x1_0003]) := by
  decide

/-- Any access can be the oldest pending one: the hypothesis of ReadsAs and of WritesAs. -/
theorem witness_ReadsAs_and_WritesAs : ∀ a : PortInput, (pending a).inputs = [a] := fun _ => rfl
theorem witness_IdRegisterIsConstant : (pending (.regRead 0x000)).inputs = [.regRead 0x000] ∧
    (pending (.regWrite 0x000 5)).inputs = [.regWrite 0x000 5] := by decide
/-- An access that is neither a CMD write nor a reset completes: the hypotheses of KeptByAccesses. -/
theorem witness_KeptByAccesses : (pending (.tokWrite 0x17F 9)).inputs = [.tokWrite 0x17F 9] ∧
    (∀ c, PortInput.tokWrite 0x17F 9 ≠ .regWrite 0x008 c) ∧ PortInput.tokWrite 0x17F 9 ≠ .reset ∧
    ∃ t, step (pending (.tokWrite 0x17F 9)) = .next t :=
  ⟨rfl, by simp, by simp, _, rfl⟩
/-- HB's clauses, the recording of an error, of an illegal word, and CLRSTAT. -/
theorem witness_StatusRegisterReports :
    (pending (.regRead 0x010)).inputs = [.regRead 0x010] ∧ (pending (.regWrite 0x010 5)).inputs = [.regWrite 0x010 5] ∧
    (¬ (Instr.mask 65 = .clrstat ∨ ∃ f k, Instr.mask 65 = .hasbits f k) ∧ ∃ t, exec (.mask 65) State.reset = .next t) ∧
    (∃ t, exec (.hasbits (7 : Fin 8) 255) State.reset = .next t) ∧
    (∃ t, runCommand 0x0104_1000 State.reset = .next t ∧ (0x0104_1000 : Word) ≠ wordOf 0x3F 0 0) ∧
    (∃ t, runCommand 0x3F00_1000 State.reset = .next t ∧ (0x3F00_1000 : Word) ≠ wordOf 0x3F 0 0) ∧
    ∃ t, exec .clrstat State.reset = .next t :=
  ⟨rfl, rfl, ⟨by simp, _, rfl⟩, ⟨_, rfl⟩, ⟨_, rfl, by decide⟩, ⟨_, rfl, by decide⟩, _, rfl⟩
theorem witness_NoCommandReadsStatus : Instr.clrstat.opcode ∈ [Opcode.hasbits, .clrstat] ∧
    ∃ t, exec .clrstat State.reset = .next t ∧ t.status.err = false := ⟨by decide, _, rfl, rfl⟩
theorem witness_ArgRegisterHoldsItsWrite : (pending (.regWrite 0x018 5)).inputs = [.regWrite 0x018 5] ∧
    (pending (.regRead 0x018)).inputs = [.regRead 0x018] ∧ (¬ False ∧ ∃ t, exec (.append 3 3) State.reset = .next t) :=
  ⟨rfl, rfl, not_false, _, rfl⟩
theorem witness_FieldValueRegisterIsRaw :
    (pending (.regRead (BitVec.ofNat 12 (0x080 + 16 * 7)))).inputs = [.regRead 0x0F0] ∧
    (pending (.regWrite (BitVec.ofNat 12 (0x080 + 16 * 0)) 5)).inputs = [.regWrite 0x080 5] ∧
    (¬ ((∃ g k, Instr.encode = .extract g k) ∨ (∃ g k, Instr.encode = .append g k) ∨ (∃ g, Instr.encode = .fclear g) ∨
      Instr.encode = .decode) ∧ ∃ t, exec .encode State.reset = .next t) :=
  ⟨rfl, rfl, by simp, _, rfl⟩
theorem witness_FieldControlRegisterSetsWidth :
    (pending (.regRead (BitVec.ofNat 12 (0x088 + 16 * 7)))).inputs = [.regRead 0x0F8] ∧
    (pending (.regWrite (BitVec.ofNat 12 (0x088 + 16 * 0)) 65)).inputs = [.regWrite 0x088 65] ∧
    (¬ False ∧ ∃ t, exec (.fclear 1) State.reset = .next t) ∧
    (¬ ((∃ g k, Instr.mask 5 = .extract g k) ∨ (∃ g k, Instr.mask 5 = .append g k) ∨ (∃ g, Instr.mask 5 = .frestore g) ∨
      (∃ g, Instr.mask 5 = .fclear g) ∨ Instr.mask 5 = .encode ∨ Instr.mask 5 = .decode) ∧
      ∃ t, exec (.mask 5) State.reset = .next t) :=
  ⟨rfl, rfl, ⟨not_false, _, rfl⟩, by simp, _, rfl⟩
theorem witness_FieldCountRegisterIsLegal : (pending (.regRead 0x028)).inputs = [.regRead 0x028] ∧
    (pending (.regWrite 0x028 9)).inputs = [.regWrite 0x028 9] ∧ (¬ False ∧ ∃ t, exec .encode State.reset = .next t) :=
  ⟨rfl, rfl, not_false, _, rfl⟩
/-- The widest legal schema: T = 512, EXPLEN = 103. -/
def widest : State := { State.reset with fields := Vector.replicate 8 { value := 0, width := 64, rem := 64 }, fcount := 8 }
theorem witness_TotalsRegistersAreComputed : (pending (.regRead 0x038)).inputs = [.regRead 0x038] ∧
    (pending (.regRead 0x040)).inputs = [.regRead 0x040] ∧ (pending (.regWrite 0x038 1)).inputs = [.regWrite 0x038 1] ∧
    (pending (.regWrite 0x040 1)).inputs = [.regWrite 0x040 1] ∧ LegalWidths widest ∧ widest.totalBits = 512 := by
  unfold LegalWidths; decide
theorem witness_ResultRegisterWriters : (pending (.regRead 0x020)).inputs = [.regRead 0x020] ∧
    (pending (.regWrite 0x020 1)).inputs = [.regWrite 0x020 1] ∧
    (¬ ((∃ k, Instr.encode = .mask k) ∨ (∃ f k, Instr.encode = .extract f k) ∨ (∃ v, Instr.encode = .symout v) ∨
      ∃ b, Instr.encode = .symin b) ∧ ∃ t, exec .encode State.reset = .next t) ∧
    ∃ t, runCommand 0x0104_1000 State.reset = .next t ∧ t.status.err = true :=
  ⟨rfl, rfl, ⟨by simp, _, rfl⟩, _, rfl, rfl⟩
theorem witness_TokenLengthRegisterSaturates : (pending (.regRead 0x030)).inputs = [.regRead 0x030] ∧
    (pending (.regWrite 0x030 0x1_0000)).inputs = [.regWrite 0x030 0x1_0000] ∧ LegalWidths State.reset ∧
    (∃ t, exec .encode State.reset = .next t) ∧ (¬ Instr.decode = .encode ∧ ∃ t, exec .decode State.reset = .next t) :=
  ⟨rfl, rfl, by unfold LegalWidths; decide, ⟨_, rfl⟩, by simp, _, rfl⟩
/-- An E_LENGTH, a success and a CLRSTAT. -/
theorem witness_LengthCountRegisters : (pending (.regRead 0x048)).inputs = [.regRead 0x048] ∧
    (pending (.regRead 0x050)).inputs = [.regRead 0x050] ∧ (pending (.regWrite 0x048 1)).inputs = [.regWrite 0x048 1] ∧
    (pending (.regWrite 0x050 1)).inputs = [.regWrite 0x050 1] ∧
    (∃ t, runCommand 0x3100_0000 State.reset = .next t ∧ (0x3100_0000 : Word) ≠ wordOf 0x3F 0 0 ∧ t.status.ecode = 5) ∧
    (∃ t, runCommand 0 State.reset = .next t ∧ (0 : Word) ≠ wordOf 0x3F 0 0 ∧ t.status.ecode ≠ 5) ∧
    ∃ t, exec .clrstat State.reset = .next t :=
  ⟨rfl, rfl, rfl, rfl, ⟨_, rfl, by decide, rfl⟩, ⟨_, rfl, by decide, by decide⟩, _, rfl⟩
theorem witness_TokenBytesAreStorage :
    (pending (.tokRead (BitVec.ofNat 12 (0x100 + 127)))).inputs = [.tokRead 0x17F] ∧
    (pending (.tokWrite (BitVec.ofNat 12 (0x100 + 0)) 9)).inputs = [.tokWrite 0x100 9] ∧ State.reset.token.wf = true ∧
    (¬ Instr.decode = .encode ∧ ∃ t, exec .decode State.reset = .next t) ∧
    (Instr.encode ≠ .decode ∧ ∃ t, exec .encode State.reset = .next t) :=
  ⟨rfl, rfl, rfl, ⟨by simp, _, rfl⟩, by simp, _, rfl⟩

theorem witness_ResetRestoresEverything : (pending .reset).inputs = [.reset] := rfl
/-- The invariant's clauses hold together of a state with a recorded length mismatch, and a step is taken from it. -/
theorem witness_StepKeepsInv : ∃ s t : State, s.Inv ∧ s.lenobs ≠ 0 ∧ step s = .next t :=
  ⟨{ pending (.regWrite 0x008 0x3200_0000) with
      lenobs := 33, lenexp := 29, status := { hb := true, err := true, sticky := true, ecode := 5 }, token := [(127, 0x41)] },
    _, ⟨by decide, by decide, by decide, by decide, by decide, by decide⟩, by decide, rfl⟩
theorem witness_ObservableStatesKeepBounds : Reachable State.reset := .reset
/-- A command that writes, and host accesses that write a field's WIDTH and a token byte. -/
theorem witness_WhoWritesWhat : (∃ t, exec .encode State.reset = .next t ∧ t.tlen ≠ State.reset.tlen) ∧
    ((pending (.regWrite 0x0F8 64)).token.wf = true ∧ (pending (.regWrite 0x0F8 64)).inputs = [.regWrite 0x0F8 64] ∧
      (∀ c, PortInput.regWrite 0x0F8 64 ≠ .regWrite 0x008 c) ∧ PortInput.regWrite 0x0F8 64 ≠ .reset ∧
      ∃ t, step (pending (.regWrite 0x0F8 64)) = .next t ∧ (t.field 7).width ≠ (State.reset.field 7).width) ∧
    ∃ t, step (pending (.tokWrite 0x17F 9)) = .next t ∧ t.token.read 127 ≠ State.reset.token.read 127 :=
  ⟨⟨_, rfl, by decide⟩, ⟨rfl, rfl, by simp, by simp, _, rfl, by decide⟩, _, rfl, by decide⟩

theorem witness_NopOnlyReportsSuccess : bitsOf 0x0010_0000 24 8 = 0x00 ∧ (0x0010_0000 : Word) ≠ 0 := by decide
theorem witness_ClrstatClearsStatus : bitsOf 0x3F00_1000 24 8 = 0x3F ∧ (0x3F00_1000 : Word) ≠ wordOf 0x3F 0 0 := by decide
theorem witness_MaskLoadsAllOnes : 255 < 256 ∧ 64 ≤ 64 ∧ 64 < 65 ∧
    (bitsOf 0x0110_5000 24 8 = 0x01 ∧ bitsOf 0x0110_5000 20 4 ≠ 0) := by decide
theorem witness_MaskLaws : 64 ≤ 64 ∧ 64 ≤ 64 := by decide
theorem witness_HasbitsTestsRemaining : (15 < 16 ∧ 255 < 256) ∧ 7 < 8 ∧
    (bitsOf 0x1000_0001 24 8 = 0x10 ∧ bitsOf 0x1000_0001 0 12 ≠ 0) := by decide
theorem witness_ExtractTakesTopBits : (15 < 16 ∧ 255 < 256) ∧ (64 ≤ 64 ∧ 64 ≤ (State.reset.field 2).rem.toNat) ∧ 7 < 8 ∧
    64 < 65 ∧ (64 ≤ 64 ∧ (State.reset.field 0).rem.toNat < 64) ∧
    (bitsOf 0x1100_0001 24 8 = 0x11 ∧ bitsOf 0x1100_0001 0 12 ≠ 0) := by decide
/-- k = 64 with ARG all ones; ARG = 1 at k = 0; k above REM; and the no-loss clause after FCLEAR. -/
theorem witness_AppendShiftsBitsIn : (15 < 16 ∧ 255 < 256) ∧
    (64 ≤ 64 ∧ (0xFFFF_FFFF_FFFF_FFFF : Word).toNat < 2 ^ 64 ∧ 64 ≤ (State.reset.field 2).rem.toNat) ∧ 7 < 8 ∧
    (64 < 65 ∧ 2 ^ 0 ≤ (1 : Word).toNat) ∧ (64 ≤ 64 ∧ State.reset.arg.toNat < 2 ^ 64 ∧ (State.reset.field 0).rem.toNat < 64) ∧
    ((State.reset.field 0).rem.toNat ≤ (State.reset.field 0).width.toNat ∧ (State.reset.field 0).width.toNat ≤ 64 ∧
      (State.reset.field 0).value.toNat < 2 ^ ((State.reset.field 0).width.toNat - (State.reset.field 0).rem.toNat)) ∧
    (bitsOf 0x1200_0001 24 8 = 0x12 ∧ bitsOf 0x1200_0001 0 12 ≠ 0) := by decide
theorem witness_AppendShiftsBitsIn_step : ∃ t, exec (.append (0 : Fin 8) 10) State.reset = .next t ∧ t.status.err = false :=
  ⟨_, rfl, rfl⟩
theorem witness_FrestoreResetsRemaining : 15 < 16 ∧ 7 < 8 ∧
    (bitsOf 0x1320_1000 24 8 = 0x13 ∧ bitsOf 0x1320_1000 12 8 ≠ 0) := by decide
theorem witness_FclearPreparesInsertion : 15 < 16 ∧ 7 < 8 ∧
    (bitsOf 0x1410_1000 24 8 = 0x14 ∧ bitsOf 0x1410_1000 12 8 ≠ 0) := by decide
theorem witness_SymoutLooksUpByte : 255 < 256 ∧ 31 ≤ 31 ∧ 31 < 32 ∧
    (bitsOf 0x2010_0000 24 8 = 0x20 ∧ bitsOf 0x2010_0000 20 4 ≠ 0) := by decide
theorem witness_SyminLooksUpValue : bitsOf 0x2110_0000 24 8 = 0x21 ∧ bitsOf 0x2110_0000 20 4 ≠ 0 := by decide
theorem witness_ChecklenComparesLength : ({ State.reset with tlen := 29 } : State).tlen.toNat = expected State.reset ∧
    State.reset.tlen.toNat ≠ expected State.reset ∧ (bitsOf 0x3100_1000 24 8 = 0x31 ∧ (0x3100_1000 : Word) ≠ wordOf 0x31 0 0) := by
  decide
theorem witness_EncodeWritesTheBitstream : (widest.token.wf = true ∧ LegalWidths widest) ∧
    (0 < expected State.reset ∧ expected State.reset ≤ 127) ∧
    (bitsOf 0x3010_0000 24 8 = 0x30 ∧ (0x3010_0000 : Word) ≠ wordOf 0x30 0 0) := by
  unfold LegalWidths; decide
/-- T = 7: symbol 0 is whole, symbol 1 carries p = 2 data bits; the bounds of m are met at 0, 1 and 4. -/
theorem witness_OnlyLastSymbolIsPadded : ∃ s t : State, s.token.wf = true ∧ LegalWidths s ∧ exec .encode s = .next t ∧
    tbits s % 5 ≠ 0 ∧ 1 < tbits s % 5 ∧ 0 < expected s - 1 ∧ 4 < 5 :=
  ⟨twoFields 5 3 15 4, _, rfl, by unfold LegalWidths; decide, rfl, by decide, by decide, by decide, by decide⟩
/-- Values that differ above their widths only: 5 and 13 in three bits. -/
theorem witness_EncodeTruncatesValues : ∀ f : Fin 8, f.val < (twoFields 5 3 15 4).fcount.toNat →
    ((twoFields 13 3 31 4).fields[f.val]).width = ((twoFields 5 3 15 4).field f).width ∧
    ((twoFields 13 3 31 4).fields[f.val]).value.toNat % 2 ^ ((twoFields 5 3 15 4).field f).width.toNat =
      ((twoFields 5 3 15 4).field f).value.toNat % 2 ^ ((twoFields 5 3 15 4).field f).width.toNat := by decide
theorem witness_DecodeReadsTheBitstream : (twoBytes 0x78 0x79).tlen.toNat = expected (twoBytes 0x78 0x79) ∧
    State.reset.tlen.toNat ≠ expected State.reset ∧
    ((twoBytes 0x78 0x79).fcount.toNat ≤ (2 : Fin 8).val ∧ (1 : Fin 8).val < (twoBytes 0x78 0x79).fcount.toNat) ∧
    (bitsOf 0x3200_1000 24 8 = 0x32 ∧ (0x3200_1000 : Word) ≠ wordOf 0x32 0 0) := by decide
theorem witness_EncodeThenDecodeRoundTrip : ∃ s t t' : State, s.token.wf = true ∧ LegalWidths s ∧ exec .encode s = .next t ∧
    t'.fcount = t.fcount ∧ (∀ f : Fin 8, (t'.field f).width = (t.field f).width) ∧ t'.tlen = t.tlen ∧
    (∀ j, j < t.tlen.toNat → t'.token.read j = t.token.read j) ∧ (t'.field 0).value ≠ (t.field 0).value :=
  ⟨twoFields 5 3 15 4, State.done { twoFields 5 3 15 4 with token := [(0, 0x78), (1, 0x79)], tlen := 2 },
    { twoFields 0 3 0 4 with token := [(0, 0x78), (1, 0x79)], tlen := 2 }, rfl, by unfold LegalWidths; decide, rfl, rfl,
    by decide, rfl, fun _ _ => rfl, by decide⟩
theorem witness_DecodeThenEncodeIsCanonical : (twoBytes 0x78 0x7A).token.wf = true ∧ LegalWidths (twoBytes 0x78 0x7A) ∧
    (twoBytes 0x78 0x7A).tlen.toNat = expected (twoBytes 0x78 0x7A) ∧ tbits (twoBytes 0x78 0x7A) % 5 ≠ 0 := by
  unfold LegalWidths; decide
theorem witness_UnknownByteDecodesAsA : (twoBytes 0x78 0x79).token.wf = true ∧ 127 < 128 ∧
    ∀ v, v < 32 → (0x41 : Byte).toNat ≠ romByte v := by decide
/-- `xy` and `xz` differ in the pad bits alone (V-DEC-2). -/
theorem witness_PadBitsAreIgnored : (twoBytes 0x78 0x79).tlen.toNat = expected (twoBytes 0x78 0x79) ∧
    tbits (twoBytes 0x78 0x79) % 5 ≠ 0 ∧
    (∀ j, j < expected (twoBytes 0x78 0x79) - 1 → (twoBytes 0x78 0x7A).token.read j = (twoBytes 0x78 0x79).token.read j) ∧
    romValue ((twoBytes 0x78 0x7A).token.read (expected (twoBytes 0x78 0x79) - 1)).toNat / 2 ^ (5 - tbits (twoBytes 0x78 0x79) % 5) =
      romValue ((twoBytes 0x78 0x79).token.read (expected (twoBytes 0x78 0x79) - 1)).toNat / 2 ^ (5 - tbits (twoBytes 0x78 0x79) % 5) ∧
    (twoBytes 0x78 0x7A).token ≠ (twoBytes 0x78 0x79).token := by decide
theorem witness_DecodeReadsOnlyItsToken : (twoBytes 0x78 0x79).tlen.toNat = expected (twoBytes 0x78 0x79) ∧
    ∀ j, j < (twoBytes 0x78 0x79).tlen.toNat →
      ((twoBytes 0x78 0x79).token.write 2 0x7A).read j = (twoBytes 0x78 0x79).token.read j := by decide
/-- A field file that differs in REM and above FCOUNT. -/
theorem witness_CodecReadsOnlyTheSchema : Instr.encode ∈ [Instr.encode, Instr.checklen, Instr.decode] ∧
    (∀ f : Fin 8, f.val < State.reset.fcount.toNat →
      ((withFld 7 9 9 9).setField 0 { value := 0, width := 10, rem := 3 }).fields[f.val].width = (State.reset.field f).width ∧
      ((withFld 7 9 9 9).setField 0 { value := 0, width := 10, rem := 3 }).fields[f.val].value = (State.reset.field f).value) ∧
    State.reset.fcount.toNat ≤ (7 : Fin 8).val := by decide
theorem witness_CodecReadsOnlyTheSchema_step : ∃ t, exec .encode State.reset = .next t ∧ t.status.err = false ∧
    Instr.encode ≠ .checklen := ⟨_, rfl, rfl, by simp⟩
theorem witness_ExtractSequenceSlices : (State.reset.field 2).rem.toNat ≤ 64 ∧ [5, 0, 59].sum ≤ (State.reset.field 2).rem.toNat ∧
    [5, 0, 59] ≠ [] := by decide
theorem witness_AppendInvertsExtract : (State.reset.field 2).width.toNat ≤ 64 ∧ [5, 59].sum = (State.reset.field 2).width.toNat := by
  decide
theorem witness_FirstErrorIsReported : ∃ t, runCommand 0x1194_6000 State.reset = .next t := ⟨_, rfl⟩
theorem witness_CommandsEndPrecisely : ∃ t, runCommand 0x0104_0000 State.reset = .next t ∧ t.status.err = false ∧
    (0x0104_0000 : Word) ≠ wordOf 0x3F 0 0 ∧ bitsOf 0x0104_0000 24 8 ≠ 0x10 := ⟨_, rfl, rfl, by decide, by decide⟩
theorem witness_AssembledCommandRuns : (Instr.append 3 6).WellFormed ∧
    (pending (.regWrite 0x008 0x1230_6000)).inputs = (Statement.cmd (.append 3 6)).accesses ++ [] := by decide
theorem witness_LoadtokLoadsTheToken : [(0x78 : Byte), 0x79].length ≤ 128 ∧ State.reset.token.wf = true ∧
    ({ State.reset with inputs := [.tokWrite 0x100 0x78, .tokWrite 0x101 0x79, .regWrite 0x030 2] } : State).inputs =
      (Statement.loadtok [0x78, 0x79]).accesses ++ [] := by decide

end Sys2Proof.Tests
end

section
/-! What each piece of state keeps, command by command (spec/10_state.md R41). Every lemma splits `exec_cases` once, so
that no later proof does. -/

namespace Sys2Proof.Machine

/-! ### What a command does to one field -/

/-- Everything a command of opcode op can do to the field x (spec/41_field.md, R182). -/
inductive FieldUpdate (x : Field) : Opcode → Field → Prop
  | kept (op : Opcode) : FieldUpdate x op x
  | dropFront (k : Nat) : k ≤ x.rem.toNat → FieldUpdate x .extract (x.dropFront k)
  | pushBack (k bits : Nat) : k ≤ x.rem.toNat → FieldUpdate x .append (x.pushBack k bits)
  | restored (op : Opcode) : op ∈ [.frestore, .encode] → FieldUpdate x op x.restored
  | rewritten (op : Opcode) (v : Word) : op ∈ [.fclear, .decode] → FieldUpdate x op { x.restored with value := v }

section FieldUpdate

variable {x y : Field} {op : Opcode}

/-- A replaced field, seen from every field. -/
theorem FieldUpdate.setField {s : State} {f : Fin Config.maxFields} (h : FieldUpdate (s.field f) op x)
    (g : Fin Config.maxFields) : FieldUpdate (s.field g) op ((s.setField f x).field g) := by
  rw [State.field_setField]
  split
  · next hg => exact hg ▸ h
  · exact .kept _

theorem FieldUpdate.width_eq (h : FieldUpdate x op y) : y.width = x.width := by cases h <;> rfl

theorem FieldUpdate.value_writer (h : FieldUpdate x op y) (hne : y.value ≠ x.value) :
    op ∈ [.extract, .append, .fclear, .decode] := by
  cases h with
  | kept | restored => exact absurd rfl hne
  | dropFront | pushBack => simp
  | rewritten _ _ hop => revert op; decide

theorem FieldUpdate.rem_writer (h : FieldUpdate x op y) (hne : y.rem ≠ x.rem) :
    op ∈ [.extract, .append, .frestore, .fclear, .encode, .decode] := by
  cases h with
  | kept => exact absurd rfl hne
  | dropFront | pushBack => simp
  | restored _ hop => revert op; decide
  | rewritten _ _ hop => revert op; decide

end FieldUpdate

/-! ### What a command's effect keeps -/

section Effect

variable {s u : State} {i : Instr}

theorem CommandEffect.fcount_eq (h : CommandEffect s i u) : u.fcount = s.fcount := by cases h <;> rfl

theorem CommandEffect.arg_eq (h : CommandEffect s i u) : u.arg = s.arg := by cases h <;> rfl

/-- A command that succeeds does to every field one of the updates of `FieldUpdate`. -/
theorem CommandEffect.fieldUpdate (h : CommandEffect s i u) (f : Fin Config.maxFields) :
    FieldUpdate (s.field f) i.opcode (u.field f) := by
  cases h with
  | extract g k _ hk => exact FieldUpdate.setField (s := s) (.dropFront k hk) f
  | append g k _ _ hk => exact FieldUpdate.setField (.pushBack k _ hk) f
  | frestore g => exact FieldUpdate.setField (.restored .frestore (by decide)) f
  | fclear g => exact FieldUpdate.setField (.rewritten .fclear 0 (by decide)) f
  | encode =>
    show FieldUpdate (s.field f) .encode s.restoredFields[f.val]
    rw [State.restoredFields_getElem]
    split
    · exact .restored _ (by decide)
    · exact .kept _
  | decode =>
    show FieldUpdate (s.field f) .decode s.decodedFields[f.val]
    rw [State.decodedFields_getElem]
    split
    · exact .rewritten _ _ (by decide)
    · exact .kept _
  | _ => exact .kept _

theorem CommandEffect.result_writer (h : CommandEffect s i u) (hne : u.result ≠ s.result) :
    i.opcode ∈ [.mask, .extract, .symout, .symin] := by
  cases h with
  | mask | extract | symout | symin => simp [Instr.opcode]
  | _ => exact absurd rfl hne

theorem CommandEffect.hb_writer (h : CommandEffect s i u) (hne : u.status.hb ≠ s.status.hb) :
    i.opcode ∈ [.hasbits, .clrstat] := by
  cases h with
  | hasbits | clrstat => simp [Instr.opcode]
  | _ => exact absurd rfl hne

theorem CommandEffect.sticky_writer (h : CommandEffect s i u) (hne : u.status.sticky ≠ s.status.sticky) :
    i.opcode = .clrstat := by
  cases h with
  | clrstat => rfl
  | _ => exact absurd rfl hne

theorem CommandEffect.tlen_writer (h : CommandEffect s i u) (hne : u.tlen ≠ s.tlen) : i.opcode = .encode := by
  cases h with
  | encode => rfl
  | _ => exact absurd rfl hne

theorem CommandEffect.token_writer (h : CommandEffect s i u) (hne : u.token ≠ s.token) : i.opcode = .encode := by
  cases h with
  | encode => rfl
  | _ => exact absurd rfl hne

/-- Success leaves the recorded counts alone, but for CLRSTAT, which zeroes them (R34, R221). -/
theorem CommandEffect.counts (h : CommandEffect s i u) :
    (u.lenobs = s.lenobs ∧ u.lenexp = s.lenexp) ∨ (i.opcode = .clrstat ∧ u.lenobs = 0 ∧ u.lenexp = 0) := by
  cases h with
  | clrstat => exact .inr ⟨rfl, rfl, rfl⟩
  | _ => exact .inl ⟨rfl, rfl⟩

end Effect

/-! ### What a command keeps -/

/-- Only the two commands that check the length raise E_LENGTH, and only on a mismatch (R190, R191). -/
theorem RaiseCause.length_mismatch {s : State} {i : Instr} (h : RaiseCause s i .length) :
    i.opcode ∈ [.checklen, .decode] ∧ s.tlen.toNat ≠ s.expLen := by
  cases h with
  | checklenLength h => exact ⟨by simp [Instr.opcode], h⟩
  | decodeLength h => exact ⟨by simp [Instr.opcode], h⟩

/-- What errors keep and every effect keeps, every command keeps. -/
theorem exec_keeps {α : Type} {get : State → α} {i : Instr} {s t : State} (h : exec i s = .next t)
    (hraise : ∀ e, get (s.raise e) = get s) (heffect : ∀ u, CommandEffect s i u → get u.done = get s) :
    get t = get s := by
  obtain ⟨e, -, rfl⟩ | ⟨u, hu, rfl⟩ := exec_cases h
  · exact hraise e
  · exact heffect u hu

/-- What errors keep is changed only by an effect that changes it. -/
theorem exec_writer {α : Type} {get : State → α} {P : Prop} {i : Instr} {s t : State} (h : exec i s = .next t)
    (hraise : ∀ e, get (s.raise e) = get s) (heffect : ∀ u, CommandEffect s i u → get u.done ≠ get s → P)
    (hne : get t ≠ get s) : P := by
  obtain ⟨e, -, rfl⟩ | ⟨u, hu, rfl⟩ := exec_cases h
  · exact absurd (hraise e) hne
  · exact heffect u hu hne

section Exec

variable {s t : State} {i : Instr} (h : exec i s = .next t)
include h

theorem exec_fcount : t.fcount = s.fcount := exec_keeps h (fun _ => rfl) fun _ hu => hu.fcount_eq

theorem exec_arg : t.arg = s.arg := exec_keeps h (fun _ => rfl) fun _ hu => hu.arg_eq

theorem exec_width (f : Fin Config.maxFields) : (t.field f).width = (s.field f).width :=
  exec_keeps (get := fun s => (s.field f).width) h (fun _ => rfl) fun _ hu => (hu.fieldUpdate f).width_eq

theorem exec_value_writer (f : Fin Config.maxFields) :
    (t.field f).value ≠ (s.field f).value → i.opcode ∈ [.extract, .append, .fclear, .decode] :=
  exec_writer (get := fun s => (s.field f).value) h (fun _ => rfl) fun _ hu => (hu.fieldUpdate f).value_writer

theorem exec_rem_writer (f : Fin Config.maxFields) :
    (t.field f).rem ≠ (s.field f).rem → i.opcode ∈ [.extract, .append, .frestore, .fclear, .encode, .decode] :=
  exec_writer (get := fun s => (s.field f).rem) h (fun _ => rfl) fun _ hu => (hu.fieldUpdate f).rem_writer

theorem exec_result_writer : t.result ≠ s.result → i.opcode ∈ [.mask, .extract, .symout, .symin] :=
  exec_writer h (fun _ => rfl) fun _ hu => hu.result_writer

theorem exec_hb_writer : t.status.hb ≠ s.status.hb → i.opcode ∈ [.hasbits, .clrstat] :=
  exec_writer (get := fun s => s.status.hb) h (fun _ => rfl) fun _ hu => hu.hb_writer

theorem exec_tlen_writer : t.tlen ≠ s.tlen → i.opcode = .encode :=
  exec_writer h (fun _ => rfl) fun _ hu => hu.tlen_writer

theorem exec_token_writer : t.token ≠ s.token → i.opcode = .encode :=
  exec_writer h (fun _ => rfl) fun _ hu => hu.token_writer

theorem exec_sticky_writer (hne : t.status.sticky ≠ s.status.sticky) : t.status.err = true ∨ i.opcode = .clrstat := by
  obtain ⟨e, -, rfl⟩ | ⟨u, hu, rfl⟩ := exec_cases h
  · exact .inl rfl
  · exact .inr (hu.sticky_writer hne)

/-- LENOBS and LENEXP are written by E_LENGTH and by CLRSTAT (R34). -/
theorem exec_counts_writer (hne : t.lenobs ≠ s.lenobs ∨ t.lenexp ≠ s.lenexp) :
    (i.opcode ∈ [.checklen, .decode] ∧ t.status.ecode = 5) ∨ i.opcode = .clrstat := by
  obtain ⟨e, he, rfl⟩ | ⟨u, hu, rfl⟩ := exec_cases h
  · by_cases hlen : e = .length
    · subst hlen; exact .inl ⟨he.length_mismatch.1, rfl⟩
    · simp [hlen] at hne
  · obtain ⟨hobs, hexp⟩ | ⟨hop, -⟩ := hu.counts
    · exact absurd hne (not_or.mpr ⟨not_not.mpr hobs, not_not.mpr hexp⟩)
    · exact .inr hop

end Exec

/-! ### What a CMD write does -/

/-- A CMD write that answers t raised an error, or ran a command to its effect. -/
theorem runCommand_outcome {c : Word} {s t : State} (h : runCommand c s = .next t) :
    (∃ e, t = s.raise e ∧ (e = .length → s.tlen.toNat ≠ s.expLen)) ∨
      ∃ i u, decode c = .ok i ∧ CommandEffect s i u ∧ t = u.done := by
  obtain ⟨i, hi, hrun⟩ | ⟨r, -, hrun⟩ := runCommand_cases c s
  · rw [hrun] at h
    obtain ⟨e, he, rfl⟩ | ⟨u, hu, rfl⟩ := exec_cases h
    · refine .inl ⟨e, rfl, ?_⟩
      rintro rfl
      exact he.length_mismatch.2
    · exact .inr ⟨i, u, hi, hu, rfl⟩
  · rw [hrun] at h
    exact .inl ⟨.illegal, (Host.Outcome.next.inj h).symm, fun h => by cases h⟩

/-- CLRSTAT has one word (R221). -/
theorem decode_clrstat_word {c : Word} {i : Instr} (h : decode c = .ok i) (hi : i.opcode = .clrstat) :
    c = Claims.wordOf 0x3F 0 0 := by
  obtain ⟨op, hop, hu, hr, hf, himm, rfl⟩ := decode_ok h
  rw [Opcode.opcode_instr] at hi
  subst hi
  calc c = commandWord (opField c) (fField c) (immField c) := (commandWord_fields hu hr).symm
    _ = commandWord Opcode.clrstat.byte 0 0 := by rw [hop, hf rfl, himm rfl]
    _ = Claims.wordOf 0x3F 0 0 := by decide

end Sys2Proof.Machine
end

section
/-! What the host's own accesses do (spec/20_memory.md R60 to R67): each register write's cases said once, and the
read and write rules of ReadsAs, WritesAs and KeptByAccesses reduced to `State.readReg` and `State.writeReg`. -/

namespace Sys2Proof.Machine

/-! ### Register writes -/

/-- Everything a RegWrite of v to a register other than CMD can do (R24, R26, R27, R29, R33, R67). -/
inductive RegisterWrite (s : State) (v : Word) : Reg → State → Prop
  | ignored (r : Reg) : RegisterWrite s v r s
  | arg : RegisterWrite s v .arg { s with arg := v }
  | fcount : v.toNat ≤ 8 → RegisterWrite s v .fcount { s with fcount := v.setWidth 4 }
  | tlen : RegisterWrite s v .tlen (s.writeTlen v)
  | fvalue (f : Fin 8) : RegisterWrite s v (.fvalue f) (s.setField f { s.field f with value := v })
  | fctrl (f : Fin 8) (w : BitVec 7) : w.toNat ≤ 64 →
      RegisterWrite s v (.fctrl f) (s.setField f { s.field f with width := w, rem := w })

theorem State.writeReg_effect (s : State) (r : Reg) (v : Word) : RegisterWrite s v r (s.writeReg r v) := by
  cases r with
  | arg => exact .arg
  | tlen => exact .tlen
  | fvalue f => exact .fvalue f
  | fcount =>
    rw [State.writeReg, State.writeFcount]
    split
    · next h => exact .fcount h
    · exact .ignored _
  | fctrl f =>
    rw [State.writeReg, State.writeFctrl]
    split
    · next h => exact .fctrl f _ h
    · exact .ignored _
  | _ => exact .ignored _

section RegisterWrite

variable {s t : State} {r : Reg} {v : Word} (h : RegisterWrite s v r t)
include h

theorem RegisterWrite.result_eq : t.result = s.result := by cases h <;> rfl
theorem RegisterWrite.status_eq : t.status = s.status := by cases h <;> rfl
theorem RegisterWrite.lenobs_eq : t.lenobs = s.lenobs := by cases h <;> rfl
theorem RegisterWrite.lenexp_eq : t.lenexp = s.lenexp := by cases h <;> rfl
theorem RegisterWrite.token_eq : t.token = s.token := by cases h <;> rfl

theorem RegisterWrite.arg_writer (hne : t.arg ≠ s.arg) : r = .arg := by
  cases h with
  | arg => rfl
  | _ => exact absurd rfl hne

theorem RegisterWrite.fcount_writer (hne : t.fcount ≠ s.fcount) : r = .fcount := by
  cases h with
  | fcount => rfl
  | _ => exact absurd rfl hne

theorem RegisterWrite.tlen_writer (hne : t.tlen ≠ s.tlen) : r = .tlen := by
  cases h with
  | tlen => rfl
  | _ => exact absurd rfl hne

/-- A register write reaches a field through its FVALUE or its FCTRL alone (R26, R27). -/
theorem RegisterWrite.field_cases (g : Fin Config.maxFields) :
    t.field g = s.field g ∨ (r = .fvalue g ∧ t.field g = { s.field g with value := v }) ∨
      (r = .fctrl g ∧ ∃ w : BitVec 7, w.toNat ≤ 64 ∧ t.field g = { s.field g with width := w, rem := w }) := by
  cases h with
  | fvalue f =>
    by_cases hg : g = f
    · subst hg; exact .inr (.inl ⟨rfl, State.field_setField_self _ _ _⟩)
    · exact .inl (State.field_setField_of_ne _ _ _ _ hg)
  | fctrl f w hw =>
    by_cases hg : g = f
    · subst hg; exact .inr (.inr ⟨rfl, w, hw, State.field_setField_self _ _ _⟩)
    · exact .inl (State.field_setField_of_ne _ _ _ _ hg)
  | _ => exact .inl rfl

theorem RegisterWrite.value_writer {g : Fin Config.maxFields} (hne : (t.field g).value ≠ (s.field g).value) :
    r = .fvalue g := by
  obtain hg | ⟨hr, -⟩ | ⟨-, w, -, hg⟩ := h.field_cases g
  · exact absurd (congrArg Field.value hg) hne
  · exact hr
  · exact absurd (congrArg Field.value hg) hne

/-- WIDTH and REM are written through FCTRL, both with the same width (R27). -/
theorem RegisterWrite.width_rem_writer {g : Fin Config.maxFields}
    (hne : (t.field g).width ≠ (s.field g).width ∨ (t.field g).rem ≠ (s.field g).rem) :
    r = .fctrl g ∧ (t.field g).rem = (t.field g).width := by
  obtain hg | ⟨-, hg⟩ | ⟨hr, w, -, hg⟩ := h.field_cases g
  · exact absurd hne (by simp [hg])
  · exact absurd hne (by simp [hg])
  · exact ⟨hr, by rw [hg]⟩

end RegisterWrite

/-! ### Accesses -/

/-- An access that runs no command and is no reset: a read, a register write or a token write. -/
theorem access_cases {s t : State} {a : PortInput} {rest : List PortInput} (hin : s.inputs = a :: rest)
    (hcmd : ∀ c, a ≠ .regWrite 0x008 c) (hreset : a ≠ .reset) (h : step s = .next t) :
    (∃ x, t = { s.taking rest with response := some x }) ∨
      (∃ r v, a = .regWrite r.offset v ∧ RegisterWrite (s.taking rest) v r t) ∨
      ∃ i b, i < Config.tokenBytes ∧ a = .tokWrite (BitVec.ofNat 12 (0x100 + i)) b ∧
        t = { s.taking rest with token := s.token.write i b } := by
  obtain ⟨hnil, -⟩ | ⟨rest', hcase⟩ := step_cases h
  · rw [hin] at hnil; cases hnil
  rw [hin] at hcase
  obtain ⟨r, hr, rfl⟩ | ⟨i, -, hi, rfl⟩ | ⟨c, hc, -⟩ | ⟨r, v, -, hr, rfl⟩ | ⟨i, b, hlt, hi, rfl⟩ | ⟨hr, -⟩ := hcase
  · cases hr; exact .inl ⟨_, rfl⟩
  · cases hi; exact .inl ⟨_, rfl⟩
  · cases hc; exact absurd rfl (hcmd c)
  · cases hr; exact .inr (.inl ⟨r, v, rfl, State.writeReg_effect _ r v⟩)
  · cases hi; exact .inr (.inr ⟨i, b, hlt, rfl, rfl⟩)
  · cases hr; exact absurd rfl hreset

theorem regWrite_cmd (c : Word) (s : State) : regWrite Reg.cmd.offset c s = runCommand c s := by
  rw [regWrite, Reg.at?_offset]

/-- A CMD write at the head of the queue is run in the next step (R21, R72). -/
theorem step_cmdWrite {s : State} {c : Word} {rest : List PortInput} (hin : s.inputs = .regWrite Reg.cmd.offset c :: rest) :
    step s = runCommand c (s.taking rest) := by
  rw [step_input hin, perform, regWrite_cmd]

theorem regWrite_of_ne_cmd {r : Reg} (hr : r ≠ .cmd) (v : Word) (s : State) :
    regWrite r.offset v s = .next (s.writeReg r v) := by
  rw [regWrite, Reg.at?_offset]
  cases r with
  | cmd => exact absurd rfl hr
  | _ => rfl

end Sys2Proof.Machine

namespace Sys2Proof.Claims

open Sys2Proof.Machine

/-- A register reads as `State.readReg` says (R60). -/
theorem readsAs_of_readReg (r : Reg) {g : State → Word} (h : ∀ s, s.readReg r = g s) : ReadsAs r.offset g := by
  intro s rest hin
  rw [step_input hin, perform, regRead, Reg.at?_offset, ← h s, ← s.readReg_taking rest r]
  rfl

/-- A register other than CMD is written as `State.writeReg` says (R60). -/
theorem writesAs_of_writeReg {r : Reg} (hr : r ≠ .cmd) {v : Word} {g : State → State}
    (h : ∀ s, s.writeReg r v = g s) : WritesAs r.offset v g := by
  intro s rest hin
  rw [step_input hin, perform, regWrite_of_ne_cmd hr, h]
  rfl

/-- What reads, register writes and token writes keep, every access but a CMD write and a reset keeps. -/
theorem keptByAccesses_of {α : Type} {get : State → α}
    (hread : ∀ s rest x, get { State.taking s rest with response := some x } = get s)
    (hwrite : ∀ s rest v r t, RegisterWrite (State.taking s rest) v r t → get t = get s)
    (htok : ∀ s rest m, get { State.taking s rest with token := m } = get s) : KeptByAccesses get := by
  intro s t a rest hin hcmd hreset h
  obtain ⟨x, rfl⟩ | ⟨r, v, -, hw⟩ | ⟨i, b, -, -, rfl⟩ := access_cases hin hcmd hreset h
  · exact hread s rest x
  · exact hwrite s rest v r t hw
  · exact htok s rest _

/-- If a change of what `get` reads shows that the command satisfies P, then only such commands change it. -/
theorem onlyWrittenBy_of {α : Type} {P : Instr → Prop} {get : State → α}
    (h : ∀ {i s t}, exec i s = .next t → get t ≠ get s → P i) : OnlyWrittenBy P get :=
  fun _ _ _ hP hex => by_contra fun hne => hP (h hex hne)

/-- What every command keeps, no command writes. -/
theorem onlyWrittenBy_none {α : Type} {get : State → α} (h : ∀ {i s t}, exec i s = .next t → get t = get s) :
    OnlyWrittenBy (fun _ => False) get := fun _ _ _ _ hex => h hex

/-- The two spellings of T agree (R30). -/
theorem tbits_eq (s : State) : tbits s = s.totalBits := s.totalBits_eq_sum.symm

/-- The two spellings of EXPLEN agree (R31). -/
theorem expected_eq (s : State) : expected s = s.expLen := by
  rw [expected, tbits_eq, State.expLen, ceil5_eq]

end Sys2Proof.Claims
end

section
/-! The invariant (spec/10_state.md R40, R23, R34): it holds at reset, every command and every access keeps it, so it
holds of every state a host can observe. -/

namespace Sys2Proof.Machine

/-! ### STATUS -/

theorem Status.failed_inv (e : ErrorCode) (t : Status) : (t.failed e).Inv :=
  ⟨e.code_bounds.2, iff_of_true rfl e.code_bounds.1, fun _ => rfl⟩

theorem Status.succeeded_inv (t : Status) : t.succeeded.Inv :=
  ⟨Nat.zero_le _, iff_of_false Bool.false_ne_true fun h => h rfl, fun h => absurd h Bool.false_ne_true⟩

/-! ### Fields -/

/-- No command breaks REM ≤ WIDTH ≤ 64: REM only falls or is set to WIDTH (R40, R131). -/
theorem FieldUpdate.inv {x y : Field} {op : Opcode} (h : FieldUpdate x op y) (hx : x.Inv) : y.Inv := by
  obtain ⟨hrem, hwidth⟩ := hx
  have fall : ∀ k, (BitVec.ofNat 7 (x.rem.toNat - k)).toNat ≤ x.width.toNat := fun k =>
    calc (BitVec.ofNat 7 (x.rem.toNat - k)).toNat ≤ x.rem.toNat - k := by
          rw [BitVec.toNat_ofNat]; exact Nat.mod_le _ _
      _ ≤ x.rem.toNat := Nat.sub_le _ _
      _ ≤ x.width.toNat := hrem
  cases h with
  | kept => exact ⟨hrem, hwidth⟩
  | dropFront k | pushBack k => exact ⟨fall _, hwidth⟩
  | restored | rewritten => exact ⟨Nat.le_refl _, hwidth⟩

/-! ### Commands -/

/-- A recorded error keeps the invariant: E_LENGTH is raised only when the two counts it records differ (R190). -/
theorem State.Inv.raise {s : State} (h : s.Inv) {e : ErrorCode} (he : e = .length → s.tlen.toNat ≠ s.expLen) :
    (s.raise e).Inv where
  fields := h.fields
  fcount := h.fcount
  status := Status.failed_inv e _
  token := h.token
  lenexp := by
    rw [State.raise_lenexp]
    split
    · have := State.expLen_le_103 fun f => (h.fields f).2
      rw [BitVec.toNat_ofNat]; omega
    · exact h.lenexp
  counts := by
    rw [State.raise_lenobs, State.raise_lenexp]
    split
    · next hlen =>
      have hne := he hlen
      have := State.expLen_le_103 fun f => (h.fields f).2
      refine .inr ?_
      rw [BitVec.toNat_ofNat, Nat.mod_eq_of_lt (by omega)]
      exact hne
    · exact h.counts

theorem CommandEffect.token_wf {s u : State} {i : Instr} (h : CommandEffect s i u) (hs : s.token.wf = true) :
    u.token.wf = true := by
  cases h with
  | encode => exact Memory.writeFrom_wf _ 0 hs
  | _ => exact hs

/-- A command that succeeds keeps the invariant. -/
theorem CommandEffect.done_inv {s u : State} {i : Instr} (hu : CommandEffect s i u) (h : s.Inv) : u.done.Inv where
  fields f := (hu.fieldUpdate f).inv (h.fields f)
  fcount := hu.fcount_eq.symm ▸ h.fcount
  status := Status.succeeded_inv _
  token := hu.token_wf h.token
  lenexp := by
    obtain ⟨-, hexp⟩ | ⟨-, -, hexp⟩ := hu.counts
    · rw [State.done_lenexp, hexp]; exact h.lenexp
    · rw [State.done_lenexp, hexp]; exact Nat.zero_le _
  counts := by
    obtain ⟨hobs, hexp⟩ | ⟨-, hobs, hexp⟩ := hu.counts
    · rw [State.done_lenobs, State.done_lenexp, hobs, hexp]; exact h.counts
    · exact .inl ⟨hobs, hexp⟩

theorem runCommand_inv {c : Word} {s t : State} (hs : s.Inv) (h : runCommand c s = .next t) : t.Inv := by
  obtain ⟨e, rfl, he⟩ | ⟨i, u, -, hu, rfl⟩ := runCommand_outcome h
  · exact hs.raise he
  · exact hu.done_inv hs

/-! ### Accesses -/

/-- The invariant does not speak of the model's own fields `inputs` and `response`. -/
theorem State.Inv.with_port {s : State} (h : s.Inv) (inputs : List PortInput) (response : Option PortValue) :
    ({ s with inputs := inputs, response := response } : State).Inv :=
  ⟨h.fields, h.fcount, h.status, h.lenexp, h.counts, h.token⟩

theorem State.Inv.with_token {s : State} (h : s.Inv) {m : Memory} (hm : m.wf = true) :
    ({ s with token := m } : State).Inv :=
  ⟨h.fields, h.fcount, h.status, h.lenexp, h.counts, hm⟩

/-- A register write keeps the invariant: FCTRL and FCOUNT take only legal values (R27, R29). -/
theorem RegisterWrite.inv {s t : State} {r : Reg} {v : Word} (hw : RegisterWrite s v r t) (h : s.Inv) : t.Inv where
  fields g := by
    obtain hg | ⟨-, hg⟩ | ⟨-, w, hle, hg⟩ := hw.field_cases g
    · rw [hg]; exact h.fields g
    · rw [hg]; exact h.fields g
    · rw [hg]; exact ⟨Nat.le_refl _, hle⟩
  fcount := by
    cases hw with
    | fcount hv =>
      show (v.setWidth 4).toNat ≤ 8
      rw [BitVec.toNat_setWidth]
      exact (Nat.mod_le _ _).trans hv
    | _ => exact h.fcount
  status := hw.status_eq.symm ▸ h.status
  lenexp := hw.lenexp_eq.symm ▸ h.lenexp
  counts := by rw [hw.lenobs_eq, hw.lenexp_eq]; exact h.counts
  token := hw.token_eq.symm ▸ h.token

theorem State.reset_inv : State.reset.Inv :=
  ⟨by decide, by decide, by decide, by decide, by decide, by decide⟩

theorem step_inv {s t : State} (hs : s.Inv) (h : step s = .next t) : t.Inv := by
  obtain ⟨-, rfl⟩ | ⟨rest, hcase⟩ := step_cases h
  · exact hs
  have htaking : (s.taking rest).Inv := hs.with_port rest none
  obtain ⟨r, -, rfl⟩ | ⟨i, -, -, rfl⟩ | ⟨c, -, hrun⟩ | ⟨r, v, -, -, rfl⟩ | ⟨i, b, -, -, rfl⟩ | ⟨-, rfl⟩ := hcase
  · exact hs.with_port rest _
  · exact hs.with_port rest _
  · exact runCommand_inv htaking hrun
  · exact (State.writeReg_effect _ r v).inv htaking
  · exact htaking.with_token (Memory.write_wf i b hs.token)
  · exact State.reset_inv.with_port rest none

/-- The invariant holds of every state a host can observe. -/
theorem Reachable.inv {s : State} (h : Reachable s) : s.Inv := by
  induction h with
  | reset => exact State.reset_inv
  | queue s more _ ih => exact ih.with_port _ _
  | step s t _ hstep ih => exact step_inv ih hstep
  | busError s _ _ ih => exact ih.with_port _ _

end Sys2Proof.Machine

namespace Sys2Proof.Claims

/-- Settles O27: one lemma for each way a step can go, from the cases of `step_cases`. -/
theorem stepKeepsInv : Obligations.StepKeepsInv := fun _ _ => Machine.step_inv

/-- Settles O28, by induction on how the host reached the state. -/
theorem observableStatesKeepBounds : Obligations.ObservableStatesKeepBounds :=
  fun _ h => ⟨h.inv.fields, h.inv.fcount⟩

/-- Settles O26: each clause is a computation on the fixed reset state. -/
theorem invHoldsAtReset : Obligations.InvHoldsAtReset := Machine.State.reset_inv

end Sys2Proof.Claims
end

section
/-! The registers of spec/10_state.md, one by one: how each reads, what the host's write does, which commands write it
and its reset value. -/

namespace Sys2Proof.Machine

/-! ### Packed registers -/

/-- Fields packed side by side: a number under 2^n with another shifted above it is their weighted sum. -/
theorem or_shiftLeft_eq_add {a n : Nat} (h : a < 2 ^ n) (b : Nat) : a ||| (b <<< n) = a + 2 ^ n * b := by
  rw [Nat.or_comm, ← Nat.shiftLeft_add_eq_or_of_lt h, Nat.shiftLeft_eq, Nat.add_comm, Nat.mul_comm]

/-- STATUS's read value as a weighted sum (R23). -/
theorem Status.word_eq (t : Status) : t.word =
    BitVec.ofNat 64 (t.hb.toNat + 2 * t.err.toNat + 4 * t.sticky.toNat + 16 * t.ecode.toNat) := by
  have hb := t.hb.toNat_lt
  have herr := t.err.toNat_lt
  have hsticky := t.sticky.toNat_lt
  rw [Status.word, or_shiftLeft_eq_add (n := 1) (by omega), or_shiftLeft_eq_add (n := 2) (by omega),
    or_shiftLeft_eq_add (n := 4) (by omega)]
  rfl

/-- FCTRL's read value as a weighted sum (R27). -/
theorem Field.ctrlWord_eq (x : Field) : x.ctrlWord = BitVec.ofNat 64 (x.width.toNat + 256 * x.rem.toNat) := by
  rw [Field.ctrlWord, or_shiftLeft_eq_add (n := 8) (x.width.isLt.trans (by decide))]
  rfl

/-- FCTRL takes v's low seven bits, if they are a legal width (R27). -/
theorem State.writeFctrl_eq (s : State) (f : Fin 8) (v : Word) : s.writeFctrl f v =
    if v.toNat % 128 ≤ 64 then
      Claims.withFieldSet s f
        { value := (s.field f).value, width := BitVec.ofNat 7 (v.toNat % 128), rem := BitVec.ofNat 7 (v.toNat % 128) }
    else s := by
  have hnat : (v.setWidth 7).toNat = v.toNat % 128 := BitVec.toNat_setWidth 7 v
  have hword : BitVec.ofNat 7 (v.toNat % 128) = v.setWidth 7 := by rw [← hnat, BitVec.ofNat_toNat, BitVec.setWidth_eq]
  rw [State.writeFctrl, hnat, hword]
  rfl

/-! ### Commands by opcode -/

theorem Instr.writes_value {i : Instr} (h : i.opcode ∈ [.extract, .append, .fclear, .decode]) :
    (∃ g k, i = .extract g k) ∨ (∃ g k, i = .append g k) ∨ (∃ g, i = .fclear g) ∨ i = .decode := by
  cases i <;> simp [Instr.opcode] at h ⊢

theorem Instr.writes_rem {i : Instr} (h : i.opcode ∈ [.extract, .append, .frestore, .fclear, .encode, .decode]) :
    (∃ g k, i = .extract g k) ∨ (∃ g k, i = .append g k) ∨ (∃ g, i = .frestore g) ∨ (∃ g, i = .fclear g) ∨
      i = .encode ∨ i = .decode := by
  cases i <;> simp [Instr.opcode] at h ⊢

theorem Instr.writes_result {i : Instr} (h : i.opcode ∈ [.mask, .extract, .symout, .symin]) :
    (∃ k, i = .mask k) ∨ (∃ f k, i = .extract f k) ∨ (∃ v, i = .symout v) ∨ ∃ b, i = .symin b := by
  cases i <;> simp [Instr.opcode] at h ⊢

theorem Instr.writes_hb {i : Instr} (h : i.opcode ∈ [.hasbits, .clrstat]) : i = .clrstat ∨ ∃ f k, i = .hasbits f k := by
  cases i <;> simp [Instr.opcode] at h ⊢

theorem Instr.eq_encode {i : Instr} (h : i.opcode = .encode) : i = .encode := by
  cases i with
  | encode => rfl
  | _ => cases h

/-! ### STATUS is not read -/

/-- The causes of an error do not depend on STATUS (R36). -/
theorem RaiseCause.with_status {s : State} {i : Instr} {e : ErrorCode} (h : RaiseCause s i e) (st : Status) :
    RaiseCause { s with status := st } i e := by
  cases h <;> constructor <;> assumption

/-- A command's effect does not depend on STATUS, nor does the HB that HASBITS and CLRSTAT write (R36). -/
theorem CommandEffect.with_status {s u : State} {i : Instr} (h : CommandEffect s i u) (st : Status) :
    ∃ u', CommandEffect { s with status := st } i u' ∧ { u' with status := u.status } = u ∧
      (i.opcode ∈ [.hasbits, .clrstat] → u'.status.hb = u.status.hb) := by
  cases h with
  | hasbits f k => exact ⟨_, .hasbits f k, rfl, fun _ => rfl⟩
  | clrstat => exact ⟨_, .clrstat, rfl, fun _ => rfl⟩
  | _ => exact ⟨_, by constructor <;> assumption, by rfl, fun h => by simp [Instr.opcode] at h⟩

/-! ### Words that decode -/

theorem runCommand_of_decode {c : Word} {i : Instr} (h : decode c = .ok i) (s : State) : runCommand c s = exec i s := by
  rw [runCommand, h]

theorem decode_of_decodeTableWord {n w : Nat} {i : Instr} (h : decodeTableWord n w = some i) :
    decode (BitVec.ofNat 64 (w % 2 ^ n)) = .ok i := by
  unfold decodeTableWord at h
  split at h
  · next hok => rw [hok, Option.some.inj h]
  · cases h

end Sys2Proof.Machine

namespace Sys2Proof.Claims

open Sys2Proof.Machine

/-! ### STATUS -/

/-- After a CMD write STATUS's bits agree with each other (R23, R232, R233). -/
theorem runCommand_status_inv {c : Word} {s t : State} (h : runCommand c s = .next t) : t.status.Inv := by
  obtain ⟨e, rfl, -⟩ | ⟨i, u, -, -, rfl⟩ := runCommand_outcome h
  · exact Status.failed_inv e _
  · exact Status.succeeded_inv _

/-- STICKY gathers every ERR until CLRSTAT's word (R23, R221). -/
theorem runCommand_sticky {c : Word} {s t : State} (h : runCommand c s = .next t) (hc : c ≠ wordOf 0x3F 0 0) :
    t.status.sticky = (s.status.sticky || t.status.err) := by
  obtain ⟨e, rfl, -⟩ | ⟨i, u, hi, hu, rfl⟩ := runCommand_outcome h
  · exact (Bool.or_true _).symm
  · have hkept : u.status.sticky = s.status.sticky :=
      by_contra fun hne => hc (decode_clrstat_word hi (hu.sticky_writer hne))
    exact hkept.trans (Bool.or_false _).symm

/-- Settles O14: HB by HASBITS's effect, ERR and ECODE by the invariant of STATUS, STICKY by `runCommand_sticky`. -/
theorem statusRegisterReports : Obligations.StatusRegisterReports := by
  refine ⟨readsAs_of_readReg .status fun s => s.status.word_eq,
    fun v => writesAs_of_writeReg (r := .status) (by decide) fun _ => rfl,
    onlyWrittenBy_of fun h hne => Instr.writes_hb (exec_hb_writer h hne), ?_,
    fun c s t h => have ⟨hcode, hrel, _⟩ := runCommand_status_inv h; ⟨hcode, hrel⟩,
    fun c s t => runCommand_sticky, ?_,
    keptByAccesses_of (fun _ _ _ => rfl) (fun _ _ _ _ _ hw => hw.status_eq) fun _ _ _ => rfl, rfl⟩
  · intro f k s t h
    rw [exec_of_effect (.hasbits f k)] at h
    cases h
    rfl
  · intro s t h
    cases h
    exact ⟨rfl, rfl⟩

/-- Settles O15: causes and effects do not look at STATUS. -/
theorem noCommandReadsStatus : Obligations.NoCommandReadsStatus := by
  intro i s st
  obtain ⟨e, he⟩ | ⟨u, hu⟩ := cause_or_effect i s
  · refine ⟨_, _, exec_of_cause he, exec_of_cause (he.with_status st), rfl, rfl, rfl, fun _ herr => ?_⟩
    cases herr
  · obtain ⟨u', hu', hsame, hhb⟩ := hu.with_status st
    refine ⟨_, _, exec_of_effect hu, exec_of_effect hu', ?_, rfl, rfl, fun hi _ => hhb hi⟩
    exact congrArg State.done hsame

/-! ### The field file -/

/-- Settles O17: VALUE's writers among the commands are those of `FieldUpdate`. -/
theorem fieldValueRegisterIsRaw : Obligations.FieldValueRegisterIsRaw :=
  ⟨fun f => readsAs_of_readReg (.fvalue f) fun _ => rfl,
    fun f v => writesAs_of_writeReg (r := .fvalue f) (by simp) fun _ => rfl,
    fun f => onlyWrittenBy_of fun h hne => Instr.writes_value (exec_value_writer h f hne), by decide⟩

/-- Settles O18: no `FieldUpdate` changes WIDTH, and REM's writers are the lemma's. -/
theorem fieldControlRegisterSetsWidth : Obligations.FieldControlRegisterSetsWidth :=
  ⟨fun f => readsAs_of_readReg (.fctrl f) fun s => (s.field f).ctrlWord_eq,
    fun f v => writesAs_of_writeReg (r := .fctrl f) (by simp) fun s => s.writeFctrl_eq f v,
    fun f => onlyWrittenBy_none fun h => exec_width h f,
    fun f => onlyWrittenBy_of fun h hne => Instr.writes_rem (exec_rem_writer h f hne)⟩

/-! ### The totals, RESULT and the token's length -/

/-- Legal widths bound T and EXPLEN (R30, R31). -/
theorem LegalWidths.totals_le {s : State} (h : LegalWidths s) : tbits s ≤ 512 ∧ expected s ≤ 103 :=
  ⟨tbits_eq s ▸ State.totalBits_le_512 h, expected_eq s ▸ State.expLen_le_103 h⟩

/-- Settles O20: the statement's T and EXPLEN are the model's, which legal widths bound. -/
theorem totalsRegistersAreComputed : Obligations.TotalsRegistersAreComputed :=
  ⟨readsAs_of_readReg .tbits fun s => congrArg (BitVec.ofNat 64) (tbits_eq s).symm,
    readsAs_of_readReg .explen fun s => congrArg (BitVec.ofNat 64) (expected_eq s).symm,
    fun _ => LegalWidths.totals_le,
    fun v => writesAs_of_writeReg (r := .tbits) (by decide) fun _ => rfl,
    fun v => writesAs_of_writeReg (r := .explen) (by decide) fun _ => rfl,
    (tbits_eq _).trans (by decide), (expected_eq _).trans (by decide)⟩

/-- Settles O21: an error writes no RESULT, and a success does not end with ERR set. -/
theorem resultRegisterWriters : Obligations.ResultRegisterWriters := by
  refine ⟨readsAs_of_readReg .result fun _ => rfl,
    fun v => writesAs_of_writeReg (r := .result) (by decide) fun _ => rfl,
    onlyWrittenBy_of fun h hne => Instr.writes_result (exec_result_writer h hne), ?_,
    keptByAccesses_of (fun _ _ _ => rfl) (fun _ _ _ _ _ hw => hw.result_eq) fun _ _ _ => rfl, rfl⟩
  intro c s t h herr
  obtain ⟨e, rfl, -⟩ | ⟨i, u, -, -, rfl⟩ := runCommand_outcome h
  · rfl
  · cases herr

/-- Settles O22: ENCODE emits EXPLEN symbols, and a legal EXPLEN is at most 103. -/
theorem tokenLengthRegisterSaturates : Obligations.TokenLengthRegisterSaturates := by
  refine ⟨readsAs_of_readReg .tlen fun s => (BitVec.ofNat_toNat 64 s.tlen).symm,
    fun v => writesAs_of_writeReg (r := .tlen) (by decide) fun _ => rfl, ?_, ?_,
    onlyWrittenBy_of fun h hne => Instr.eq_encode (exec_tlen_writer h hne), rfl⟩
  · intro s hs
    have := hs.totals_le.2
    omega
  · intro s t h
    cases h
    exact congrArg (BitVec.ofNat 16) (s.encodeSymbols_length.trans (expected_eq s).symm)

/-- Settles O23: ECODE is 5 exactly when the write raised E_LENGTH. -/
theorem lengthCountRegisters : Obligations.LengthCountRegisters := by
  refine ⟨readsAs_of_readReg .lenobs fun s => (BitVec.ofNat_toNat 64 s.lenobs).symm,
    readsAs_of_readReg .lenexp fun s => (BitVec.ofNat_toNat 64 s.lenexp).symm,
    fun v => writesAs_of_writeReg (r := .lenobs) (by decide) fun _ => rfl,
    fun v => writesAs_of_writeReg (r := .lenexp) (by decide) fun _ => rfl, ?_, ?_,
    keptByAccesses_of (fun _ _ _ => rfl) (fun _ _ _ _ _ hw => Prod.ext hw.lenobs_eq hw.lenexp_eq) fun _ _ _ => rfl,
    rfl, rfl⟩
  · intro c s t h hc
    obtain ⟨e, rfl, -⟩ | ⟨i, u, hi, hu, rfl⟩ := runCommand_outcome h
    · cases e with
      | length => exact ⟨rfl, congrArg (BitVec.ofNat 8) (expected_eq s).symm⟩
      | _ => exact ⟨rfl, rfl⟩
    · obtain hkept | ⟨hop, -⟩ := hu.counts
      · exact hkept
      · exact absurd (decode_clrstat_word hi hop) hc
  · intro s t h
    cases h
    exact ⟨rfl, rfl⟩

/-! ### The table of writers -/

/-- Settles O29: the command rows are the writer lemmas of `exec`; the host rows are the cases of an access. -/
theorem whoWritesWhat : Obligations.WhoWritesWhat := by
  refine ⟨fun i s t h => ⟨exec_value_writer h, exec_width h, exec_rem_writer h, exec_fcount h, exec_arg h,
    exec_result_writer h, exec_hb_writer h, exec_sticky_writer h, exec_tlen_writer h, exec_counts_writer h,
    exec_token_writer h⟩, ?_⟩
  intro s t a rest hwf hin hcmd hreset h
  obtain ⟨x, rfl⟩ | ⟨r, v, rfl, hw⟩ | ⟨i, b, hi, rfl, rfl⟩ := access_cases hin hcmd hreset h
  · simp [State.field]
  · refine ⟨fun f hne => ?_, fun f hne => ?_, fun hne => ?_, fun hne => ?_, hw.result_eq, hw.status_eq, fun hne => ?_,
      hw.lenobs_eq, hw.lenexp_eq, fun j hne => absurd (congrArg (Memory.read · j) hw.token_eq) hne⟩
    · cases hw.value_writer hne; exact ⟨v, rfl⟩
    · obtain ⟨rfl, hrem⟩ := hw.width_rem_writer hne; exact ⟨⟨v, rfl⟩, hrem⟩
    · cases hw.fcount_writer hne; exact ⟨v, rfl⟩
    · cases hw.arg_writer hne; exact ⟨v, rfl⟩
    · cases hw.tlen_writer hne; exact ⟨v, rfl⟩
  · have hread := Memory.read_write (m := s.token) i
    simp [State.field, hread _ b hwf hi]

/-! ### CMD and the registers no command writes -/

/-- Settles O8: the step is `runCommand` of the word, and that is `exec` or E_ILLEGAL. -/
theorem cmdWriteRunsItsCommand : Obligations.CmdWriteRunsItsCommand := by
  refine ⟨fun s c rest i hin hi => ?_, fun s c rest hin hi => ?_, readsAs_of_readReg .cmd fun _ => rfl⟩
  · rw [step_cmdWrite hin, runCommand_of_decode hi]; rfl
  · rw [step_cmdWrite hin]
    obtain ⟨i, hok, -⟩ | ⟨r, -, hrun⟩ := runCommand_cases c (s.taking rest)
    · exact absurd hok (hi i)
    · exact hrun

/-- Settles O9: the word placed first is a CMD write, and its decoding is the table word's. -/
theorem fetchWordRunsNext : Obligations.FetchWordRunsNext := by
  intro s w i _ hi
  rw [step_cmdWrite (s := s.withFetchWord 32 w) rfl, runCommand_of_decode (decode_of_decodeTableWord hi)]
  rfl

/-- Settles O13: the read value and the ignored write are the register rules, the fields arithmetic on the constant. -/
theorem idRegisterIsConstant : Obligations.IdRegisterIsConstant :=
  ⟨readsAs_of_readReg .id fun _ => rfl, fun v => writesAs_of_writeReg (r := .id) (by decide) fun _ => rfl, by decide⟩

/-- Settles O16: every command keeps ARG. -/
theorem argRegisterHoldsItsWrite : Obligations.ArgRegisterHoldsItsWrite :=
  ⟨fun v => writesAs_of_writeReg (r := .arg) (by decide) fun _ => rfl, readsAs_of_readReg .arg fun _ => rfl,
    onlyWrittenBy_none exec_arg, rfl⟩

/-- Settles O19: every command keeps FCOUNT, and `writeFcount` tests the whole 64-bit value. -/
theorem fieldCountRegisterIsLegal : Obligations.FieldCountRegisterIsLegal := by
  refine ⟨readsAs_of_readReg .fcount fun s => (BitVec.ofNat_toNat 64 s.fcount).symm,
    fun v => writesAs_of_writeReg (r := .fcount) (by decide) fun s => ?_, onlyWrittenBy_none exec_fcount, rfl⟩
  rw [BitVec.ofNat_toNat]
  rfl

end Sys2Proof.Claims
end

section
/-! The host window's accesses (spec/20_memory.md R62 to R67): which offsets the port refuses and that every other
access completes, the token bytes as storage, and what reads and ignored writes leave as it was. -/

namespace Sys2Proof.Machine

/-! ### Which offsets are refused -/

/-- The field file fills 0x080 to 0x0FF, a register every 8 bytes (R61). -/
theorem fieldRegAt?_eq_none_iff {n : Nat} : fieldRegAt? n = none ↔ n < 0x080 ∨ 0x100 ≤ n ∨ n % 8 ≠ 0 := by
  unfold fieldRegAt?
  split
  · next hlow => simp [hlow]
  · next hlow =>
    by_cases hhigh : 0x100 ≤ n
    · rw [fieldIndex?_of_ge (by simp only [Config.maxFields]; omega)]
      simp [hhigh]
    · rw [fieldIndex?_of_lt (by simp only [Config.maxFields]; omega)]
      simp only [ite_eq_iff, reduceCtorEq, and_false, and_true, false_or]
      omega

/-- An offset names no register exactly where R63 and R64 refuse it. -/
theorem Reg.at?_eq_none_iff {off : Offset} : Reg.at? off = none ↔
    off.toNat % 8 ≠ 0 ∨ 0x100 ≤ off.toNat ∨ (0x058 ≤ off.toNat ∧ off.toNat < 0x080) := by
  unfold Reg.at?
  split
  all_goals simp only [reduceCtorEq, false_iff, fieldRegAt?_eq_none_iff, imp_false] at *; omega

theorem tokenIndex?_eq_none_iff {off : Offset} : tokenIndex? off = none ↔ off.toNat < 0x100 ∨ 0x180 ≤ off.toNat := by
  simp only [tokenIndex?, ite_eq_right_iff, reduceCtorEq, imp_false, Config.tokenBytes]
  omega

@[simp] theorem tokenIndex?_offset (i : Fin 128) : tokenIndex? (BitVec.ofNat 12 (0x100 + i.val)) = some i.val :=
  tokenIndex?_eq_some.mpr ⟨Nat.mod_eq_of_lt (by omega), i.isLt⟩

/-! ### A refused access is a bus error and any other completes -/

theorem exec_completes (i : Instr) (s : State) : ∃ t, exec i s = .next t := by
  obtain ⟨e, he⟩ | ⟨u, hu⟩ := cause_or_effect i s
  · exact ⟨_, exec_of_cause he⟩
  · exact ⟨_, exec_of_effect hu⟩

theorem runCommand_completes (c : Word) (s : State) : ∃ t, runCommand c s = .next t := by
  obtain ⟨i, -, hrun⟩ | ⟨r, -, hrun⟩ := runCommand_cases c s
  · exact hrun ▸ exec_completes i s
  · exact ⟨_, hrun⟩

theorem regWrite_offset_completes (r : Reg) (v : Word) (s : State) : ∃ t, regWrite r.offset v s = .next t := by
  by_cases hr : r = .cmd
  · rw [hr, regWrite_cmd]; exact runCommand_completes v s
  · exact ⟨_, regWrite_of_ne_cmd hr v s⟩

theorem regRead_outcome (off : Offset) (s : State) :
    if Reg.at? off = none then regRead off s = .fault .busError else ∃ t, regRead off s = .next t := by
  rw [regRead]
  cases Reg.at? off with
  | none => rfl
  | some r => exact ⟨_, rfl⟩

theorem regWrite_outcome (off : Offset) (v : Word) (s : State) :
    if Reg.at? off = none then regWrite off v s = .fault .busError else ∃ t, regWrite off v s = .next t := by
  cases hr : Reg.at? off with
  | none => rw [if_pos rfl, regWrite, hr]
  | some r => rw [if_neg (Option.some_ne_none r), ← Reg.offset_of_at? hr]; exact regWrite_offset_completes r v s

theorem tokRead_outcome (off : Offset) (s : State) :
    if tokenIndex? off = none then tokRead off s = .fault .busError else ∃ t, tokRead off s = .next t := by
  rw [tokRead]
  cases tokenIndex? off with
  | none => rfl
  | some i => exact ⟨_, rfl⟩

theorem tokWrite_outcome (off : Offset) (b : Byte) (s : State) :
    if tokenIndex? off = none then tokWrite off b s = .fault .busError else ∃ t, tokWrite off b s = .next t := by
  rw [tokWrite]
  cases tokenIndex? off with
  | none => rfl
  | some i => exact ⟨_, rfl⟩

/-! ### Only DECODE reads the token buffer -/

/-- The causes of an error do not depend on the token buffer: the length check compares TLEN and EXPLEN (R190). -/
theorem RaiseCause.with_token {s : State} {i : Instr} {e : ErrorCode} (h : RaiseCause s i e) (m : Memory) :
    RaiseCause { s with token := m } i e := by
  cases h <;> constructor <;> assumption

/-- The effect of a command other than DECODE depends on the token buffer only in the buffer it leaves (R62). -/
theorem CommandEffect.with_token {s u : State} {i : Instr} (h : CommandEffect s i u) (hi : i ≠ .decode) (m : Memory) :
    ∃ u', CommandEffect { s with token := m } i u' ∧ Claims.SameButToken u u' := by
  cases h with
  | decode => exact absurd rfl hi
  | encode => exact ⟨_, .encode, rfl⟩
  | _ => exact ⟨_, by constructor <;> assumption, by rfl⟩

/-! ### Reads and ignored writes -/

/-- A read that completes takes the access and leaves a value, nothing else (R66). -/
theorem step_read {s t : State} {off : Offset} {rest : List PortInput}
    (hin : s.inputs = .regRead off :: rest ∨ s.inputs = .tokRead off :: rest) (h : step s = .next t) :
    ∃ x, t = { s.taking rest with response := some x } := by
  obtain hin | hin := hin
  all_goals
    obtain hread | ⟨r, v, hw, -⟩ | ⟨i, b, -, hw, -⟩ := access_cases hin (by simp) (by simp) h
    · exact hread
    · cases hw
    · cases hw

/-- The read-only registers (R67). -/
def Reg.readOnly : List Reg := [.id, .status, .result, .tbits, .explen, .lenobs, .lenexp]

theorem State.writeReg_readOnly {r : Reg} (hr : r ∈ Reg.readOnly) (s : State) (v : Word) : s.writeReg r v = s := by
  cases r with
  | arg | fcount | tlen | fvalue | fctrl => simp [Reg.readOnly] at hr
  | _ => rfl

/-- FCTRL's write looks at bits 6:0 alone (R27). -/
theorem State.writeFctrl_congr {v v' : Word} (h : Claims.bitsOf v 0 7 = Claims.bitsOf v' 0 7) (s : State) (f : Fin 8) :
    s.writeFctrl f v = s.writeFctrl f v' := by
  have hlow : v.toNat % 128 = v'.toNat % 128 := by simpa [Claims.bitsOf] using h
  rw [State.writeFctrl_eq, State.writeFctrl_eq, hlow]

end Sys2Proof.Machine

namespace Sys2Proof.Claims

open Sys2Proof.Machine

/-- Settles O10: the refused offsets are those that name no register and no token byte. -/
theorem refusedAccessesAreBusErrors : Obligations.RefusedAccessesAreBusErrors := by
  refine ⟨fun s off rest hin => ?_, fun s off v rest hin => ?_, fun s off rest hin => ?_, fun s off b rest hin => ?_,
    fun s a rest hin => ?_⟩
  · simpa only [step_input hin, perform, Reg.at?_eq_none_iff] using regRead_outcome off (s.taking rest)
  · simpa only [step_input hin, perform, Reg.at?_eq_none_iff] using regWrite_outcome off v (s.taking rest)
  · simpa only [step_input hin, perform, tokenIndex?_eq_none_iff] using tokRead_outcome off (s.taking rest)
  · simpa only [step_input hin, perform, tokenIndex?_eq_none_iff] using tokWrite_outcome off b (s.taking rest)
  · rw [State.afterBusError, hin]
    rfl

/-- Settles O24: a written byte reads back by `Memory.read_write`; neither the causes of an error nor any effect but
DECODE's looks at the buffer. -/
theorem tokenBytesAreStorage : Obligations.TokenBytesAreStorage := by
  refine ⟨fun i s rest hin => ?_, fun i b s rest hwf hin => ⟨s.token.write i b, ?_, ?_⟩,
    onlyWrittenBy_of fun h hne => Instr.eq_encode (exec_token_writer h hne), fun i hi s t m h => ?_⟩
  · rw [step_input hin, perform, tokRead, tokenIndex?_offset]
    rfl
  · rw [step_input hin, perform, tokWrite, tokenIndex?_offset]
    rfl
  · exact fun j => Memory.read_write i j b hwf i.isLt
  · obtain ⟨e, he, rfl⟩ | ⟨u, hu, rfl⟩ := exec_cases h
    · exact ⟨_, exec_of_cause (he.with_token m), rfl⟩
    · obtain ⟨u', hu', hsame⟩ := hu.with_token hi m
      exact ⟨_, exec_of_effect hu', congrArg State.done hsame⟩

/-- Settles O11, by `step_read`. -/
theorem readsHaveNoSideEffects : Obligations.ReadsHaveNoSideEffects := by
  intro s t off rest hin h
  obtain ⟨x, rfl⟩ := step_read hin h
  exact ⟨rfl, rfl⟩

/-- Settles O12: the listed offsets are those of `Reg.readOnly`, and FCTRL's write sees bits 6:0 alone. -/
theorem readOnlyWritesAreIgnored : Obligations.ReadOnlyWritesAreIgnored := by
  refine ⟨?_, fun f v v' s s' rest hlow hin hs' => ?_, readsAs_of_readReg .cmd fun _ => rfl⟩
  · show ∀ off ∈ Reg.readOnly.map Reg.offset, ∀ v : Word, WritesAs off v id
    refine List.forall_mem_map.mpr fun r hr v => writesAs_of_writeReg ?_ fun s => s.writeReg_readOnly hr v
    rintro rfl
    simp [Reg.readOnly] at hr
  · have hwrite : ∀ w : Word, WritesAs (Reg.fctrl f).offset w fun s => s.writeFctrl f w :=
      fun w => writesAs_of_writeReg (by simp) fun _ => rfl
    subst hs'
    rw [hwrite v s rest hin, hwrite v' _ rest rfl]
    exact congrArg Host.Outcome.next (State.writeFctrl_congr hlow _ f)

end Sys2Proof.Claims
end

section
/-! The command word (spec/30_encoding.md): which words an opcode's row names, the encoder read off an opcode and its
fields, and with both the exact inverse of the decoder. -/

namespace Sys2Proof

/-! ### The words of a row -/

/-- The word c is one of op's, by its fields: OP is op's byte; UPPER, RSV and every unused field are 0 (R93). -/
structure Opcode.Names (op : Opcode) (c : Word) : Prop where
  opcode : opField c = op.byte
  upper : upperField c = 0
  reserved : rsvField c = 0
  unusedF : op.usesF = false → fField c = 0
  unusedImm : op.usesImm = false → immField c = 0

/-- The decoder accepts a word exactly for the opcode that names it (R95). -/
theorem decode_eq_ok_iff_names {c : Word} {i : Instr} :
    decode c = .ok i ↔ ∃ op : Opcode, op.Names c ∧ i = op.instr (fField c) (immField c) := by
  constructor
  · intro h
    obtain ⟨op, hop, hu, hr, hf, himm, rfl⟩ := decode_ok h
    exact ⟨op, ⟨hop, hu, hr, hf, himm⟩, rfl⟩
  · rintro ⟨op, h, rfl⟩
    exact decode_of_fields h.opcode h.upper h.reserved h.unusedF h.unusedImm

/-- A word decodes to a command of opcode op exactly when op names it. -/
theorem decodes_to_opcode_iff {c : Word} {op : Opcode} :
    (∃ i, decode c = .ok i ∧ i.opcode = op) ↔ op.Names c := by
  constructor
  · rintro ⟨i, hi, rfl⟩
    obtain ⟨op, h, rfl⟩ := decode_eq_ok_iff_names.mp hi
    rwa [Opcode.opcode_instr]
  · exact fun h => ⟨_, decode_eq_ok_iff_names.mpr ⟨op, h, rfl⟩, Opcode.opcode_instr ..⟩

/-! ### The encoder -/

section Fields

variable {op : Opcode} {f : BitVec 4} {imm : BitVec 8}

/-- The F operand of a command is its F field, where an unused field is 0 (R91). -/
theorem Opcode.fOperand_instr (hf : op.usesF = false → f = 0) : (op.instr f imm).fOperand = f.toNat := by
  cases op with
  | hasbits | extract | append | frestore | fclear => rfl
  | _ => rw [hf rfl]; rfl

/-- The IMM operand of a command is its IMM field, where an unused field is 0 (R91). -/
theorem Opcode.immOperand_instr (himm : op.usesImm = false → imm = 0) : (op.instr f imm).immOperand = imm.toNat := by
  cases op with
  | mask | hasbits | extract | append | symout | symin => rfl
  | _ => rw [himm rfl]; rfl

/-- The encoder puts an opcode's byte and its two fields back where the decoder found them (R99). -/
theorem encode_instr (hf : op.usesF = false → f = 0) (himm : op.usesImm = false → imm = 0) :
    encode (op.instr f imm) = commandWord op.byte f imm := by
  rw [encode, Opcode.opcode_instr, Opcode.fOperand_instr hf, Opcode.immOperand_instr himm, BitVec.ofNat_toNat,
    BitVec.ofNat_toNat, BitVec.setWidth_eq, BitVec.setWidth_eq]

end Fields

/-- A command is well formed exactly when its operands, 0 where it has none, fit their fields (R91). -/
theorem Instr.wellFormed_iff {i : Instr} : i.WellFormed ↔ fitsF i.fOperand ∧ fitsImm i.immOperand := by
  cases i with
  | symin b => exact iff_of_true rfl ⟨Nat.zero_lt_succ 15, b.isLt⟩
  | _ => simp [Instr.WellFormed, Instr.wellFormed, Instr.fOperand, Instr.immOperand]

/-- A well-formed command is its opcode applied to its operands: none is lost in the fields. -/
theorem Instr.instr_operands {i : Instr} (h : i.WellFormed) :
    i.opcode.instr (BitVec.ofNat 4 i.fOperand) (BitVec.ofNat 8 i.immOperand) = i := by
  obtain ⟨hfits, himmfits⟩ := Instr.wellFormed_iff.mp h
  have hf : (BitVec.ofNat 4 i.fOperand).toNat = i.fOperand := Nat.mod_eq_of_lt hfits
  have himm : (BitVec.ofNat 8 i.immOperand).toNat = i.immOperand := Nat.mod_eq_of_lt himmfits
  cases i with
  | symin b => exact congrArg Instr.symin (BitVec.eq_of_toNat_eq himm)
  | _ => simp only [Instr.opcode, Opcode.instr, hf, himm] <;> rfl

/-- The encoder leaves an operand the command does not have at 0 (R99). -/
theorem opcode_names_encode (i : Instr) : i.opcode.Names (encode i) where
  opcode := opField_commandWord ..
  upper := upperField_commandWord ..
  reserved := rsvField_commandWord ..
  unusedF := by rw [encode, fField_commandWord]; cases i <;> simp [Instr.opcode, Opcode.usesF, Instr.fOperand]
  unusedImm := by rw [encode, immField_commandWord]; cases i <;> simp [Instr.opcode, Opcode.usesImm, Instr.immOperand]

theorem decode_encode {i : Instr} (h : i.WellFormed) : decode (encode i) = .ok i := by
  refine decode_eq_ok_iff_names.mpr ⟨i.opcode, opcode_names_encode i, ?_⟩
  rw [encode, fField_commandWord, immField_commandWord, Instr.instr_operands h]

/-- The decoder accepts exactly the encodings of well-formed commands (R95, R99). -/
theorem decode_eq_ok_iff {c : Word} {i : Instr} : decode c = .ok i ↔ i.WellFormed ∧ encode i = c := by
  constructor
  · intro h
    obtain ⟨op, hn, rfl⟩ := decode_eq_ok_iff_names.mp h
    refine ⟨Opcode.wellFormed_instr .., ?_⟩
    rw [encode_instr hn.unusedF hn.unusedImm, ← hn.opcode, commandWord_fields hn.upper hn.reserved]
  · rintro ⟨hwf, rfl⟩
    exact decode_encode hwf

/-! ### The match and mask columns -/

theorem bitVec_append_inj {v w : Nat} {a a' : BitVec v} {b b' : BitVec w} :
    a ++ b = a' ++ b' ↔ a = a' ∧ b = b' := by
  refine ⟨fun h => ⟨?_, ?_⟩, fun ⟨ha, hb⟩ => by rw [ha, hb]⟩
  · rw [← BitVec.extractLsb'_append_eq_left (a := a) (b := b), h, BitVec.extractLsb'_append_eq_left]
  · rw [← BitVec.extractLsb'_append_eq_right (a := a) (b := b), h, BitVec.extractLsb'_append_eq_right]

/-- A mask that covers a field unless it is used matches 0 exactly where an unused field is 0. -/
theorem and_mask_unless_used {n : Nat} (used : Bool) (x : BitVec n) :
    x &&& (if used then 0 else BitVec.allOnes n) = 0 ↔ (used = false → x = 0) := by
  cases used <;> simp

/-- The low half of any word is its four fields (R90). -/
theorem low_eq_fields (c : Word) : c.extractLsb' 0 32 = opField c ++ fField c ++ immField c ++ rsvField c := by
  simp only [opField, fField, immField, rsvField, BitVec.extractLsb'_append_extractLsb'_eq_extractLsb']

/-- A row's mask and match pick out the words its opcode names (R93). -/
theorem Opcode.matchesWord_iff_names {op : Opcode} {c : Word} : op.matchesWord c = true ↔ op.Names c := by
  have hop : opField c &&& 0xFF#8 = opField c := BitVec.and_allOnes
  have hrsv : rsvField c &&& 0xFFF#12 = rsvField c := BitVec.and_allOnes
  have hf : fField c &&& (if op.usesF then 0#4 else 0xF#4) = 0#4 ↔ (op.usesF = false → fField c = 0) :=
    and_mask_unless_used ..
  have himm : immField c &&& (if op.usesImm then 0#8 else 0xFF#8) = 0#8 ↔ (op.usesImm = false → immField c = 0) :=
    and_mask_unless_used ..
  rw [Opcode.matchesWord, Bool.and_eq_true, beq_iff_eq, beq_iff_eq, low_eq_fields, Laws.MatchesRow.row_eq,
    BitVec.and_append, BitVec.and_append, BitVec.and_append, bitVec_append_inj, bitVec_append_inj,
    bitVec_append_inj, hop, hrsv, hf, himm]
  exact ⟨fun ⟨hu, ⟨⟨h1, h2⟩, h3⟩, h4⟩ => ⟨h1, hu, h4, h2, h3⟩,
    fun h => ⟨h.upper, ⟨⟨h.opcode, h.unusedF⟩, h.unusedImm⟩, h.reserved⟩⟩

/-- The match and mask columns read on the whole 64-bit value as a number (R93). -/
theorem Opcode.matchesWord_iff_toNat {op : Opcode} {c : Word} : op.matchesWord c = true ↔
    c.toNat < 2 ^ 32 ∧ c.toNat &&& op.row.2.toNat = op.row.1.toNat := by
  have hupper : upperField c = 0 ↔ c.toNat < 2 ^ 32 := by
    rw [← BitVec.toNat_inj, upperField_toNat]
    exact Nat.div_eq_zero_iff_lt (by decide)
  rw [Opcode.matchesWord, Bool.and_eq_true, beq_iff_eq, beq_iff_eq, hupper]
  refine and_congr_right fun hlt => ?_
  rw [← BitVec.toNat_inj, BitVec.toNat_and, BitVec.extractLsb'_toNat, Nat.shiftRight_zero, Nat.mod_eq_of_lt hlt]

end Sys2Proof

namespace Sys2Proof.Claims

open Sys2Proof.Machine

/-! ### R96's list of illegal words -/

theorem bitsOf_upper (c : Word) : bitsOf c 32 32 = (upperField c).toNat := by
  have := c.isLt
  rw [bitsOf, upperField_toNat]
  omega

theorem bitsOf_op (c : Word) : bitsOf c 24 8 = (opField c).toNat := (opField_toNat c).symm

theorem bitsOf_f (c : Word) : bitsOf c 20 4 = (fField c).toNat := (fField_toNat c).symm

theorem bitsOf_imm (c : Word) : bitsOf c 12 8 = (immField c).toNat := (immField_toNat c).symm

theorem bitsOf_rsv (c : Word) : bitsOf c 0 12 = (rsvField c).toNat := by
  rw [bitsOf, rsvField_toNat, Nat.pow_zero, Nat.div_one]

/-- R93's OP column lists the opcodes' bytes. -/
theorem mem_opValues_iff {b : BitVec 8} : b.toNat ∈ opValues ↔ ∃ op : Opcode, b = op.byte := by
  constructor
  · intro h
    have hmap : ∀ b : BitVec 8, b.toNat ∈ opValues → (Opcode.ofByte? b).isSome := by decide
    obtain ⟨op, hop⟩ := Option.isSome_iff_exists.mp (hmap b h)
    exact ⟨op, Opcode.byte_of_ofByte? hop⟩
  · rintro ⟨op, rfl⟩
    cases op <;> decide

theorem byte_mem_opsWithF_iff (op : Opcode) : op.byte.toNat ∈ opsWithF ↔ op.usesF = true := by
  cases op <;> decide

theorem byte_mem_opsWithImm_iff (op : Opcode) : op.byte.toNat ∈ opsWithImm ↔ op.usesImm = true := by
  cases op <;> decide

/-- R96's list is the complement of R93's table. -/
theorem not_illegalBits_iff {c : Word} : ¬ IllegalBits c ↔ ∃ op : Opcode, op.Names c := by
  have hzero : ∀ {n : Nat} (x : BitVec n), x.toNat = 0 ↔ x = 0 := fun x => BitVec.toNat_inj (y := 0)
  simp only [IllegalBits, bitsOf_upper, bitsOf_op, bitsOf_f, bitsOf_imm, bitsOf_rsv, mem_opValues_iff, hzero, not_or,
    not_and, not_not, ne_eq]
  constructor
  · rintro ⟨hu, ⟨op, hop⟩, hr, hf, himm⟩
    rw [hop, byte_mem_opsWithF_iff, Bool.not_eq_true] at hf
    rw [hop, byte_mem_opsWithImm_iff, Bool.not_eq_true] at himm
    exact ⟨op, hop, hu, hr, hf, himm⟩
  · rintro ⟨op, h⟩
    rw [h.opcode, byte_mem_opsWithF_iff, byte_mem_opsWithImm_iff, Bool.not_eq_true, Bool.not_eq_true]
    exact ⟨h.upper, ⟨op, rfl⟩, h.reserved, h.unusedF, h.unusedImm⟩

/-- A well-formed command's word is (OP << 24) | (f << 20) | (imm << 12) (R99). -/
theorem encode_eq_wordOf {i : Instr} (h : i.WellFormed) :
    encode i = wordOf i.opcode.byte.toNat i.fOperand i.immOperand := by
  obtain ⟨hf, himm⟩ := Instr.wellFormed_iff.mp h
  apply BitVec.eq_of_toNat_eq
  have hop := i.opcode.byte.isLt
  rw [encode, commandWord_toNat, wordOf, BitVec.toNat_ofNat, BitVec.toNat_ofNat, BitVec.toNat_ofNat]
  omega

/-- A command that raises E_FIELD in every state decodes from its word, and records code 2 when it runs (R94, R231). -/
theorem decodes_and_raises_field {i : Instr} (hf : i.fOperand < 16) (himm : i.immOperand < 256)
    (hcause : ∀ s, RaiseCause s i .field) :
    decode (wordOf i.opcode.byte.toNat i.fOperand i.immOperand) = .ok i ∧
      ∀ s, exec i s = .next (failedWith 2 s) := by
  have hwf := Instr.wellFormed_iff.mpr ⟨hf, himm⟩
  exact ⟨encode_eq_wordOf hwf ▸ decode_encode hwf, fun s => exec_of_cause (hcause s)⟩

/-! ### The statements -/

/-- Settles O1: an encoded command's fields name its opcode and hold its operands whole. -/
theorem decodeInvertsEncode : Obligations.DecodeInvertsEncode := fun _ => decode_encode

/-- Settles O2: a word whose UPPER, RSV and unused fields are 0 is the command word of its own fields. -/
theorem encodeInvertsDecode : Obligations.EncodeInvertsDecode := fun _ _ => decode_eq_ok_iff.mp

/-- Settles O3: the listed rows are the model's, whose mask and match test the fields `Opcode.Names` speaks of. -/
theorem opcodeTableDecides : Obligations.OpcodeTableDecides := by
  intro r hr c
  have hrow : r.2.1 = r.1.row.1.toNat ∧ r.2.2 = r.1.row.2.toNat := by revert r; decide
  rw [decodes_to_opcode_iff, ← Opcode.matchesWord_iff_names, Opcode.matchesWord_iff_toNat, hrow.1, hrow.2]

/-- Settles O4: a word outside R96's list is named by an opcode, and a word named by one is outside the list. -/
theorem illegalWordsRaiseIllegal : Obligations.IllegalWordsRaiseIllegal := by
  refine ⟨fun c hc s => ?_, fun c hc => ?_, by decide +kernel⟩
  · obtain ⟨i, hi, -⟩ | ⟨r, -, hrun⟩ := runCommand_cases c s
    · obtain ⟨op, hn, -⟩ := decode_eq_ok_iff_names.mp hi
      exact absurd hc (not_illegalBits_iff.mpr ⟨op, hn⟩)
    · exact hrun
  · obtain ⟨op, hn⟩ := not_illegalBits_iff.mp hc
    have hi := decode_eq_ok_iff_names.mpr ⟨op, hn, rfl⟩
    exact ⟨_, hi, runCommand_of_decode hi⟩

/-- Settles O5: the opcode names the word, and an operand it does not use is a field it demands to be 0. -/
theorem operandsAreTheirFields : Obligations.OperandsAreTheirFields := by
  intro c i h
  obtain ⟨op, hn, rfl⟩ := decode_eq_ok_iff_names.mp h
  rw [bitsOf_op, bitsOf_f, bitsOf_imm, Opcode.opcode_instr, hn.opcode]
  exact ⟨rfl, Opcode.fOperand_instr hn.unusedF, Opcode.immOperand_instr hn.unusedImm⟩

/-- Settles O6: each of the thirteen commands fits and assembles to its word, which therefore decodes to it. -/
theorem exampleWordsDecode : Obligations.ExampleWordsDecode := by
  intro p hp
  have henc : p.2.WellFormed ∧ encode p.2 = p.1 := by revert p; decide
  exact ⟨decode_eq_ok_iff.mpr henc, henc.2⟩

/-- Settles O7: the five words are the commands' encodings, and F = 8 to 15 is E_FIELD's cause. -/
theorem highFieldIndexRaisesField : Obligations.HighFieldIndexRaisesField := by
  intro f k hlow hf hk
  have h0 : 0 < 256 := by decide
  exact ⟨decodes_and_raises_field (i := .hasbits f k) hf hk fun _ => .hasbitsField f k hlow,
    decodes_and_raises_field (i := .extract f k) hf hk fun _ => .extractField f k hlow,
    decodes_and_raises_field (i := .append f k) hf hk fun _ => .appendField f k hlow,
    decodes_and_raises_field (i := .frestore f) hf h0 fun _ => .frestoreField f hlow,
    decodes_and_raises_field (i := .fclear f) hf h0 fun _ => .fclearField f hlow⟩

end Sys2Proof.Claims
end

section
/-! The host-access statements that run a command and load a token (spec/30_encoding.md R100). -/

namespace Sys2Proof.Machine

theorem run_one (s : State) : Host.Core.run core 1 s = step s := run_succ 0 rfl

theorem run_of_step {s t : State} (h : step s = .next t) (n : Nat) :
    Host.Core.run core (n + 1) s = Host.Core.run core n t := by
  simp only [Host.Core.run, show core.step s = .next t from h]

/-- A write of a token byte inside the buffer (R62). -/
theorem tokWrite_tokenOffset {i : Nat} (hi : i < 128) (b : Byte) (s : State) :
    tokWrite (tokenOffset i) b s = .next { s with token := s.token.write i b } := by
  rw [tokWrite, tokenOffset, tokenIndex?_offset ⟨i, hi⟩]

/-- LOADTOK's byte writes and the access after them: the bytes are in the buffer when that access is served (R100). -/
theorem run_tokenLoads (bs : List Byte) : ∀ (i : Nat) (s : State) (a : PortInput) (rest : List PortInput),
    i + bs.length ≤ 128 → s.inputs = tokenLoads i bs ++ a :: rest →
    Host.Core.run core (bs.length + 1) s = perform a { s.taking rest with token := s.token.writeFrom i bs } := by
  induction bs with
  | nil =>
    intro i s a rest _ hin
    rw [List.length_nil, run_one, step_input hin]
    rfl
  | cons b bs ih =>
    intro i s a rest hlen hin
    rw [List.length_cons] at hlen ⊢
    have hstep := step_input hin
    rw [perform, tokWrite_tokenOffset (by omega)] at hstep
    rw [run_of_step hstep, ih (i + 1) _ a rest (by omega) rfl]
    rfl

theorem State.writeTlen_ofNat {n : Nat} (h : n ≤ 0xFFFF) (s : State) :
    s.writeTlen (BitVec.ofNat 64 n) = { s with tlen := BitVec.ofNat 16 n } := by
  rw [State.writeTlen, BitVec.toNat_ofNat, Nat.mod_eq_of_lt (by omega), Nat.min_eq_left h]

end Sys2Proof.Machine

namespace Sys2Proof.Claims

open Sys2Proof.Machine

/-- Settles O58: CMD's one access is a CMD write of the command's encoding, which decodes to it. -/
theorem assembledCommandRuns : Obligations.AssembledCommandRuns := by
  intro i s rest hwf hin
  rw [step_cmdWrite hin, runCommand_of_decode (decode_encode hwf)]
  rfl

/-- Settles O59: the byte writes by induction over the bytes, then the write of TLEN. -/
theorem loadtokLoadsTheToken : Obligations.LoadtokLoadsTheToken := by
  intro bytes s rest hlen hwf hin
  refine ⟨s.token.writeFrom 0 bytes, ?_, fun j => ?_⟩
  · rw [Statement.accesses, List.append_assoc] at hin
    rw [run_tokenLoads bytes 0 s _ rest (by omega) hin, perform, regWrite_of_ne_cmd (by decide), State.writeReg,
      State.writeTlen_ofNat (by omega)]
    rfl
  · rw [Memory.read_writeFrom bytes 0 j hwf (by rw [Nat.zero_add]; exact hlen)]
    simp

end Sys2Proof.Claims
end

section
/-! MASK and the bit-mask primitive it exposes (spec/40_mask.md). -/

namespace Sys2Proof.Machine

/-- Bit b of mask(n) is set exactly below n (R120). -/
theorem testBit_mask (n b : Nat) : (mask n).testBit b = decide (b < n) := by
  rw [mask_eq, Nat.testBit_two_pow_sub_one]

/-- Shifting mask(n) right by m lowers its bound n by m, down to 0 (R122). -/
theorem mask_shiftRight (n m : Nat) : mask n >>> m = mask (n - m) := by
  refine Nat.eq_of_testBit_eq fun b => ?_
  rw [Nat.testBit_shiftRight, testBit_mask, testBit_mask, decide_eq_decide]
  omega

end Sys2Proof.Machine

namespace Sys2Proof.Claims

open Sys2Proof.Machine

/-- The word of an opcode and two operands that fit their fields decodes to the command (R99). -/
theorem decode_wordOf {i : Instr} (hf : i.fOperand < 16) (himm : i.immOperand < 256) :
    decode (wordOf i.opcode.byte.toNat i.fOperand i.immOperand) = .ok i := by
  have hwf := Instr.wellFormed_iff.mpr ⟨hf, himm⟩
  rw [← encode_eq_wordOf hwf, decode_encode hwf]

/-- Settles O32: k up to 64 is MASK's effect and k above 64 its cause; OP 0x01 uses no F, so F, RSV and UPPER must
be 0. -/
theorem maskLoadsAllOnes : Obligations.MaskLoadsAllOnes := by
  refine ⟨fun k hk => decode_wordOf (i := .mask k) (by decide : 0 < 16) hk, fun k s hk => ?_,
    fun k s hk => exec_of_cause (.maskOperand k hk), fun c hop h => illegalWordsRaiseIllegal.1 c ?_⟩
  · rw [exec_of_effect (.mask k hk), mask_eq]
    rfl
  · have hnoF : bitsOf c 24 8 ∉ opsWithF := by rw [hop]; decide
    obtain hf | hrsv | hupper := h
    · exact .inr (.inr (.inr (.inl ⟨hnoF, hf⟩)))
    · exact .inr (.inr (.inl hrsv))
    · exact .inl hupper

/-- Settles O33: each law is the mask's own, and none needs n to be at most 64. -/
theorem maskLaws : Obligations.MaskLaws :=
  ⟨fun n _ => ⟨mask_eq n, testBit_mask n⟩, fun v n _ => land_mask v n, fun n m _ _ => mask_shiftRight n m,
    fun n _ => mask_lt n⟩

end Sys2Proof.Claims
end

section
/-! The field commands (spec/41_field.md): what each does to its field as arithmetic on VALUE and REM, the invariants
that a sequence of EXTRACTs and a sequence of APPENDs keep, and R147's two laws from them. -/

namespace Sys2Proof.Machine

/-! ### Extracting from a field -/

/-- The extracted bits as a quotient and a remainder (R135). -/
theorem Field.front_eq (x : Field) (k : Nat) : x.front k = x.value.toNat / 2 ^ (x.rem.toNat - k) % 2 ^ k := by
  rw [Field.front, land_mask, Nat.shiftRight_eq_div_pow]

/-- RESULT holds the extracted bits whole: they are no more than VALUE. -/
theorem Field.trunc64_front_toNat (x : Field) (k : Nat) : (trunc64 (x.front k)).toNat = x.front k := by
  refine trunc64_of_lt (lt_of_le_of_lt ?_ x.value.isLt)
  rw [Field.front_eq]
  exact (Nat.mod_le _ _).trans (Nat.div_le_self _ _)

/-- The field after EXTRACT, in the spec's arithmetic (R131, R135). -/
theorem Field.dropFront_eq (x : Field) (k : Nat) : x.dropFront k =
    { value := BitVec.ofNat 64 (x.value.toNat % 2 ^ (x.rem.toNat - k))
      width := x.width
      rem := BitVec.ofNat 7 (x.rem.toNat - k) } := by
  rw [Field.dropFront, land_mask, trunc64]

@[simp] theorem Field.dropFront_value_toNat (x : Field) (k : Nat) :
    (x.dropFront k).value.toNat = x.value.toNat % 2 ^ (x.rem.toNat - k) := by
  rw [Field.dropFront, land_mask]
  exact trunc64_of_lt (lt_of_le_of_lt (Nat.mod_le _ _) x.value.isLt)

/-- REM lowered by k still fits in its seven bits. -/
theorem Field.lowered_rem_toNat (x : Field) (k : Nat) : (BitVec.ofNat 7 (x.rem.toNat - k)).toNat = x.rem.toNat - k :=
  Nat.mod_eq_of_lt (lt_of_le_of_lt (Nat.sub_le _ _) x.rem.isLt)

@[simp] theorem Field.dropFront_rem_toNat (x : Field) (k : Nat) : (x.dropFront k).rem.toNat = x.rem.toNat - k :=
  x.lowered_rem_toNat k

/-! ### Appending to a field -/

@[simp] theorem Field.pushBack_width (x : Field) (k bits : Nat) : (x.pushBack k bits).width = x.width := rfl

@[simp] theorem Field.pushBack_rem_toNat (x : Field) (k bits : Nat) :
    (x.pushBack k bits).rem.toNat = x.rem.toNat - k :=
  x.lowered_rem_toNat k

/-- The field after APPEND, in the spec's arithmetic: bits below 2^k are added below the shifted VALUE (R140). -/
theorem Field.pushBack_eq (x : Field) {k bits : Nat} (hbits : bits < 2 ^ k) : x.pushBack k bits =
    { value := BitVec.ofNat 64 (x.value.toNat * 2 ^ k + bits)
      width := x.width
      rem := BitVec.ofNat 7 (x.rem.toNat - k) } := by
  rw [Field.pushBack, ← Nat.shiftLeft_add_eq_or_of_lt hbits, Nat.shiftLeft_eq, trunc64]

/-- A field being filled: VALUE has no bit beyond those filled so far (R140's bound, under R40's). -/
structure Field.Filling (x : Field) : Prop where
  rem_le : x.rem.toNat ≤ x.width.toNat
  width_le : x.width.toNat ≤ 64
  value_lt : x.value.toNat < 2 ^ (x.width.toNat - x.rem.toNat)

section Filling

variable {x : Field} {k bits : Nat}

/-- The shifted value and its new bits stay below the bound, which grows by the k bits filled. -/
theorem Field.Filling.shifted_lt (h : x.Filling) (hk : k ≤ x.rem.toNat) (hbits : bits < 2 ^ k) :
    x.value.toNat * 2 ^ k + bits < 2 ^ (x.width.toNat - (x.rem.toNat - k)) := by
  have hexp : x.width.toNat - (x.rem.toNat - k) = (x.width.toNat - x.rem.toNat) + k := by
    have := h.rem_le
    omega
  calc x.value.toNat * 2 ^ k + bits < (x.value.toNat + 1) * 2 ^ k := by rw [Nat.succ_mul]; omega
    _ ≤ 2 ^ (x.width.toNat - x.rem.toNat) * 2 ^ k := Nat.mul_le_mul_right _ h.value_lt
    _ = 2 ^ (x.width.toNat - (x.rem.toNat - k)) := by rw [hexp, Nat.pow_add]

/-- Appending to a field being filled loses no bit to trunc64 (R140). -/
theorem Field.Filling.pushBack_value_toNat (h : x.Filling) (hk : k ≤ x.rem.toNat) (hbits : bits < 2 ^ k) :
    (x.pushBack k bits).value.toNat = x.value.toNat * 2 ^ k + bits := by
  have hwidth : x.width.toNat - (x.rem.toNat - k) ≤ 64 := (Nat.sub_le _ _).trans h.width_le
  rw [Field.pushBack_eq x hbits]
  exact Nat.mod_eq_of_lt ((h.shifted_lt hk hbits).trans_le (Nat.pow_le_pow_right (by decide) hwidth))

/-- APPEND keeps a field that is being filled one (R140). -/
theorem Field.Filling.pushBack (h : x.Filling) (hk : k ≤ x.rem.toNat) (hbits : bits < 2 ^ k) :
    (x.pushBack k bits).Filling where
  rem_le := by
    rw [Field.pushBack_rem_toNat]
    exact (Nat.sub_le _ _).trans h.rem_le
  width_le := h.width_le
  value_lt := by
    rw [h.pushBack_value_toNat hk hbits, Field.pushBack_rem_toNat]
    exact h.shifted_lt hk hbits

end Filling

/-- A field that holds so far the top bits of v's low WIDTH bits, with REM bits still to come (R147). -/
structure Field.HoldsTopOf (x : Field) (v : Nat) : Prop where
  rem_le : x.rem.toNat ≤ x.width.toNat
  width_le : x.width.toNat ≤ 64
  value_eq : x.value.toNat = v / 2 ^ x.rem.toNat % 2 ^ (x.width.toNat - x.rem.toNat)

theorem Field.HoldsTopOf.filling {x : Field} {v : Nat} (h : x.HoldsTopOf v) : x.Filling where
  rem_le := h.rem_le
  width_le := h.width_le
  value_lt := by
    rw [h.value_eq]
    exact Nat.mod_lt _ (Nat.two_pow_pos _)

/-- A cleared field holds none of v's bits (R146). -/
theorem Field.holdsTopOf_cleared {x : Field} (h : x.width.toNat ≤ 64) (v : Nat) :
    Field.HoldsTopOf { x.restored with value := 0 } v where
  rem_le := le_rfl
  width_le := h
  value_eq := by simp [Nat.mod_one]

/-- The next k bits of v join the bits above them. -/
theorem topBits_mul_add_slice (v : Nat) {k r w : Nat} (hk : k ≤ r) (hr : r ≤ w) :
    v / 2 ^ r % 2 ^ (w - r) * 2 ^ k + v / 2 ^ (r - k) % 2 ^ k = v / 2 ^ (r - k) % 2 ^ (w - (r - k)) := by
  have hdiv : v / 2 ^ r = v / 2 ^ (r - k) / 2 ^ k := by
    rw [Nat.div_div_eq_div_mul, ← Nat.pow_add, Nat.sub_add_cancel hk]
  rw [show w - (r - k) = k + (w - r) by omega, Nat.pow_add, Nat.mod_mul, hdiv, Nat.mul_comm, Nat.add_comm]

/-- Appending v's next slice extends the part of v that the field holds. -/
theorem Field.HoldsTopOf.pushBack {x : Field} {v k : Nat} (h : x.HoldsTopOf v) (hk : k ≤ x.rem.toNat) :
    (x.pushBack k (v / 2 ^ (x.rem.toNat - k) % 2 ^ k)).HoldsTopOf v where
  rem_le := by
    rw [Field.pushBack_rem_toNat]
    exact (Nat.sub_le _ _).trans h.rem_le
  width_le := h.width_le
  value_eq := by
    rw [h.filling.pushBack_value_toNat hk (Nat.mod_lt _ (Nat.two_pow_pos _)), h.value_eq,
      topBits_mul_add_slice v hk h.rem_le, Field.pushBack_rem_toNat, Field.pushBack_width]

end Sys2Proof.Machine

namespace Sys2Proof.Claims

open Sys2Proof.Machine

/-! ### Illegal words of the field commands -/

/-- No command has a non-zero RSV or UPPER field (R96). -/
theorem raisesIllegal_of_reserved {c : Word} (h : bitsOf c 0 12 ≠ 0 ∨ bitsOf c 32 32 ≠ 0) : RaisesIllegal c :=
  illegalWordsRaiseIllegal.1 c (h.elim (fun hrsv => .inr (.inr (.inl hrsv))) .inl)

/-- A command without an IMM operand has none of IMM, RSV and UPPER non-zero (R96). -/
theorem raisesIllegal_of_unusedImm {c : Word} (hop : bitsOf c 24 8 ∉ opsWithImm)
    (h : bitsOf c 12 8 ≠ 0 ∨ bitsOf c 0 12 ≠ 0 ∨ bitsOf c 32 32 ≠ 0) : RaisesIllegal c :=
  h.elim (fun himm => illegalWordsRaiseIllegal.1 c (.inr (.inr (.inr (.inr ⟨hop, himm⟩))))) raisesIllegal_of_reserved

/-! ### Slices -/

/-- The slices of the low w bits do not depend on the bits above them (R131). -/
theorem slicesOf_congr {v v' w : Nat} (ks : List Nat) (hv : v % 2 ^ w = v' % 2 ^ w) (hks : ks.sum ≤ w) :
    slicesOf v w ks = slicesOf v' w ks := by
  induction ks generalizing w with
  | nil => rfl
  | cons k ks ih =>
    rw [List.sum_cons] at hks
    have hsplit : 2 ^ w = 2 ^ (w - k) * 2 ^ k := by rw [← Nat.pow_add, Nat.sub_add_cancel (by omega)]
    have hslice : v / 2 ^ (w - k) % 2 ^ k = v' / 2 ^ (w - k) % 2 ^ k := by
      rw [← Nat.mod_mul_right_div_self, ← Nat.mod_mul_right_div_self, ← hsplit, hv]
    have hrest : v % 2 ^ (w - k) = v' % 2 ^ (w - k) := by
      have hdvd : 2 ^ (w - k) ∣ 2 ^ w := ⟨_, hsplit⟩
      rw [← Nat.mod_mod_of_dvd v hdvd, ← Nat.mod_mod_of_dvd v' hdvd, hv]
    rw [slicesOf, slicesOf, hslice, ih hrest (by omega)]

/-! ### A sequence of EXTRACTs -/

/-- The EXTRACTs of ks from s end in u: their results are the slices of field f's remaining bits, and u's field is what
is left of it (R147 law 1). -/
structure ExtractsSlices (f : Fin 8) (ks : List Nat) (s u : State) : Prop where
  run : extractAll f ks s =
    some (slicesOf ((s.field f).value.toNat % 2 ^ (s.field f).rem.toNat) (s.field f).rem.toNat ks, u)
  rem_eq : (u.field f).rem.toNat = (s.field f).rem.toNat - ks.sum
  value_eq : (u.field f).value.toNat = (s.field f).value.toNat % 2 ^ ((s.field f).rem.toNat - ks.sum)
  success : u.status.err = false

/-- The state after a successful EXTRACT (R135). -/
def extracted (f : Fin 8) (k : Nat) (s : State) : State :=
  (s.setField f ((s.field f).dropFront k)).doneWith (trunc64 ((s.field f).front k))

section Extract

variable {f : Fin 8} {k : Nat} {s u : State}

theorem exec_extract (hk : k ≤ 64) (hrem : k ≤ (s.field f).rem.toNat) :
    exec (.extract f k) s = .next (extracted f k s) :=
  exec_of_effect (.extract f k hk hrem)

@[simp] theorem extracted_field : (extracted f k s).field f = (s.field f).dropFront k :=
  State.field_setField_self s f _

@[simp] theorem extracted_result_toNat : (extracted f k s).result.toNat = (s.field f).front k :=
  (s.field f).trunc64_front_toNat k

/-- The empty sequence meets law 1 after an EXTRACT, which has masked VALUE to REM; before one it need not. -/
theorem extractsSlices_nil : ExtractsSlices f [] (extracted f k s) (extracted f k s) where
  run := rfl
  rem_eq := rfl
  value_eq := by simp
  success := rfl

/-- An EXTRACT before a sequence returns the top slice and leaves the sequence the slices below it. -/
theorem ExtractsSlices.cons {ks : List Nat} (hrem : (s.field f).rem.toNat ≤ 64)
    (hsum : (k :: ks).sum ≤ (s.field f).rem.toNat) (h : ExtractsSlices f ks (extracted f k s) u) :
    ExtractsSlices f (k :: ks) s u := by
  obtain ⟨hrun, hrem_eq, hvalue, hsuccess⟩ := h
  have hcons := List.sum_cons (a := k) (l := ks)
  simp only [extracted_field, Field.dropFront_rem_toNat, Field.dropFront_value_toNat, Nat.mod_mod] at hrun hrem_eq hvalue
  refine ⟨?_, ?_, ?_, hsuccess⟩
  · have hslices := slicesOf_congr (k :: ks) (Nat.mod_mod (s.field f).value.toNat _) hsum
    have hrest := slicesOf_congr ks (Nat.mod_mod (s.field f).value.toNat (2 ^ ((s.field f).rem.toNat - k))) (by omega)
    rw [extractAll, exec_extract (by omega) (by omega), hslices, slicesOf, ← hrest]
    simp only [hrun, Option.map_some, extracted_result_toNat, Field.front_eq]
  · rw [hrem_eq, hcons, Nat.sub_sub]
  · rw [hvalue, hcons, Nat.sub_sub, Nat.mod_mod_of_dvd _ (Nat.pow_dvd_pow 2 (by omega))]

end Extract

/-- Any non-empty sequence of EXTRACTs within REM returns the field's slices (R147 law 1). -/
theorem exists_extractsSlices (f : Fin 8) (ks : List Nat) (s : State) (hrem : (s.field f).rem.toNat ≤ 64)
    (hsum : ks.sum ≤ (s.field f).rem.toNat) (hne : ks ≠ []) : ∃ u, ExtractsSlices f ks s u := by
  induction ks generalizing s with
  | nil => exact absurd rfl hne
  | cons k ks ih =>
    suffices ∃ u, ExtractsSlices f ks (extracted f k s) u from this.imp fun _ hu => hu.cons hrem hsum
    by_cases hks : ks = []
    · exact hks ▸ ⟨_, extractsSlices_nil⟩
    · have hleft : ((extracted f k s).field f).rem.toNat = (s.field f).rem.toNat - k := by simp
      rw [List.sum_cons] at hsum
      exact ih (extracted f k s) (by omega) (by omega) hks

/-! ### A sequence of APPENDs -/

/-- The state after a successful APPEND (R140). -/
def appended (f : Fin 8) (k : Nat) (s : State) : State :=
  State.done (s.setField f ((s.field f).pushBack k s.arg.toNat))

section Append

variable {f : Fin 8} {k : Nat} {s t : State}

theorem exec_append (hk : k ≤ 64) (harg : s.arg.toNat < 2 ^ k) (hrem : k ≤ (s.field f).rem.toNat) :
    exec (.append f k) s = .next (appended f k s) :=
  exec_of_effect (.append f k hk harg hrem)

@[simp] theorem appended_field : (appended f k s).field f = (s.field f).pushBack k s.arg.toNat :=
  State.field_setField_self s f _

/-- An APPEND that records no error had all that R140 demands. -/
theorem append_success (h : exec (.append f k) s = .next t) (hok : t.status.err = false) :
    s.arg.toNat < 2 ^ k ∧ k ≤ (s.field f).rem.toNat ∧ t = appended f k s := by
  obtain ⟨e, -, rfl⟩ | ⟨u, hu, rfl⟩ := exec_cases h
  · exact absurd hok (by simp)
  · generalize hg : f.val = g at hu
    cases hu with
    | append _ _ _ harg hrem =>
      obtain rfl := Fin.ext hg
      exact ⟨harg, hrem, rfl⟩

/-- The first APPEND of a sequence adds its bits to the field and leaves the others to run. -/
theorem appendAll_cons {bits : Nat} (ps : List (Nat × Nat)) (hk : k ≤ 64) (hbits : bits < 2 ^ k)
    (hrem : k ≤ (s.field f).rem.toNat) :
    ∃ t, t.field f = (s.field f).pushBack k bits ∧ appendAll f ((k, bits) :: ps) s = appendAll f ps t := by
  have harg : (BitVec.ofNat 64 bits).toNat = bits :=
    Nat.mod_eq_of_lt (hbits.trans_le (Nat.pow_le_pow_right (by decide) hk))
  refine ⟨appended f k { s with arg := BitVec.ofNat 64 bits }, ?_, ?_⟩
  · rw [appended_field, harg]
    rfl
  · rw [appendAll, exec_append (s := { s with arg := BitVec.ofNat 64 bits }) hk (harg.trans_lt hbits) hrem]

end Append

/-- Appending the slices of v that are still to come completes the low WIDTH bits of v (R147 law 2). -/
theorem appendAll_slicesOf (f : Fin 8) (v : Nat) (ks : List Nat) (s : State) (h : (s.field f).HoldsTopOf v)
    (hsum : ks.sum = (s.field f).rem.toNat) :
    ∃ u, appendAll f (ks.zip (slicesOf v (s.field f).rem.toNat ks)) s = some u ∧
      (u.field f).value.toNat = v % 2 ^ (s.field f).width.toNat ∧ (u.field f).rem.toNat = 0 := by
  induction ks generalizing s with
  | nil =>
    have hzero : (s.field f).rem.toNat = 0 := hsum.symm
    refine ⟨s, rfl, ?_, hzero⟩
    rw [h.value_eq, hzero, Nat.pow_zero, Nat.div_one, Nat.sub_zero]
  | cons k ks ih =>
    rw [List.sum_cons] at hsum
    have hk : k ≤ (s.field f).rem.toNat := by omega
    have hk64 : k ≤ 64 := hk.trans (h.rem_le.trans h.width_le)
    obtain ⟨t, hfield, hrun⟩ := appendAll_cons (ks.zip (slicesOf v ((s.field f).rem.toNat - k) ks)) hk64
      (Nat.mod_lt (v / 2 ^ ((s.field f).rem.toNat - k)) (Nat.two_pow_pos k)) hk
    have hrest := ih t
    rw [hfield, Field.pushBack_rem_toNat, Field.pushBack_width] at hrest
    rw [slicesOf, List.zip_cons_cons, hrun]
    exact hrest (h.pushBack hk) (by omega)

/-! ### The statements -/

/-- Settles O53: by induction over the counts; each EXTRACT masks the field to the bits the later slices come from. -/
theorem extractSequenceSlices : Obligations.ExtractSequenceSlices := by
  intro f ks s hrem hsum hne
  obtain ⟨u, hu⟩ := exists_extractsSlices f ks s hrem hsum hne
  exact ⟨u, hu.run, hu.rem_eq, hu.value_eq, hu.success⟩

/-- Settles O54: FCLEAR leaves a field that holds none of v's bits, and each APPEND adds the next slice to them. -/
theorem appendInvertsExtract : Obligations.AppendInvertsExtract := by
  intro f ks v s hwidth hsum
  have hcleared := exec_of_effect (.fclear (s := s) f)
  have happend := appendAll_slicesOf f v ks (s.setField f { (s.field f).restored with value := 0 }).done
  rw [State.field_done, State.field_setField_self] at happend
  exact ⟨_, (happend (Field.holdsTopOf_cleared hwidth v) hsum).imp fun _ hu => ⟨hcleared, hu⟩⟩

/-- Settles O35: success is EXTRACT's effect in the spec's arithmetic, and each error is its cause. -/
theorem extractTakesTopBits : Obligations.ExtractTakesTopBits := by
  refine ⟨fun f k hf hk => decode_wordOf (i := .extract f k) hf hk, fun f k s hk hrem => ?_,
    fun f k s hf => exec_of_cause (.extractField f k hf), fun f k s hk => exec_of_cause (.extractOperand f k hk),
    fun f k s hk hrem => exec_of_cause (.extractUnderflow f k hk hrem), fun c _ => raisesIllegal_of_reserved⟩
  rw [exec_extract hk hrem, extracted, Field.dropFront_eq, Field.front_eq]
  rfl

/-- Settles O36: success is APPEND's effect in the spec's arithmetic, each error is its cause, and a field that is being
filled stays one. -/
theorem appendShiftsBitsIn : Obligations.AppendShiftsBitsIn := by
  refine ⟨fun f k hf hk => decode_wordOf (i := .append f k) hf hk, fun f k s hk harg hrem => ?_,
    fun f k s hf => exec_of_cause (.appendField f k hf), fun f k s h => exec_of_cause (.appendOperand f k h),
    fun f k s hk harg hrem => exec_of_cause (.appendUnderflow f k hk harg hrem),
    fun f k s t h hok hle hwidth hvalue => ?_, fun c _ => raisesIllegal_of_reserved⟩
  · rw [exec_append hk harg hrem, appended, Field.pushBack_eq _ harg]
    rfl
  · have hfilling : (s.field f).Filling := ⟨hle, hwidth, hvalue⟩
    obtain ⟨harg, hrem, rfl⟩ := append_success h hok
    rw [appended_field]
    exact ⟨hfilling.pushBack_value_toNat hrem harg, (hfilling.pushBack hrem harg).value_lt⟩

/-- Settles O34: below F = 8 HASBITS always has its effect, whatever k is. -/
theorem hasbitsTestsRemaining : Obligations.HasbitsTestsRemaining :=
  ⟨fun f k hf hk => decode_wordOf (i := .hasbits f k) hf hk, fun f k _ => exec_of_effect (.hasbits f k),
    fun f k _ hf => exec_of_cause (.hasbitsField f k hf), fun _ _ => raisesIllegal_of_reserved⟩

/-- Settles O37: FRESTORE's effect is the restored field; OP 0x13 uses no IMM. -/
theorem frestoreResetsRemaining : Obligations.FrestoreResetsRemaining :=
  ⟨fun f hf => decode_wordOf (i := .frestore f) hf (by decide : 0 < 256), fun f _ => exec_of_effect (.frestore f),
    fun f _ hf => exec_of_cause (.frestoreField f hf),
    fun _ hop => raisesIllegal_of_unusedImm (by rw [hop]; decide)⟩

/-- Settles O38: FCLEAR's effect is the restored field with VALUE 0; OP 0x14 uses no IMM. -/
theorem fclearPreparesInsertion : Obligations.FclearPreparesInsertion :=
  ⟨fun f hf => decode_wordOf (i := .fclear f) hf (by decide : 0 < 256), fun f _ => exec_of_effect (.fclear f),
    fun f _ hf => exec_of_cause (.fclearField f hf),
    fun _ hop => raisesIllegal_of_unusedImm (by rw [hop]; decide)⟩

end Sys2Proof.Claims
end

section
/-! The alphabet ROM, SYMOUT and SYMIN, and DECODE's lenient reading of a token (spec/42_symbol_rom.md). -/

namespace Sys2Proof.Claims

open Sys2Proof.Machine

/-! ### The ROM in R160's and R161's ranges -/

theorem romValue_romByte {v : Nat} (hv : v < 32) : romValue (romByte v) = v := by
  simp only [romValue, romByte]
  split_ifs <;> omega

/-- A byte that is no symbol's byte lies outside both of R161's ranges. -/
theorem romValue_outside {b : Nat} (h : ∀ v, v < 32 → b ≠ romByte v) : romValue b = 0 := by
  have hletter : ¬ (0x61 ≤ b ∧ b ≤ 0x7A) := fun hb =>
    h (b - 0x61) (by omega) (by rw [romByte, if_pos (by omega)]; omega)
  have hdigit : ¬ (0x32 ≤ b ∧ b ≤ 0x37) := fun hb =>
    h (b - 0x32 + 26) (by omega) (by rw [romByte, if_neg (by omega)]; omega)
  rw [romValue, if_neg hletter, if_neg hdigit]

theorem encRom_toNat (v : Symbol) : (encRom v).toNat = romByte v.toNat := by revert v; decide

theorem encRom_ofNat_toNat {v : Nat} (hv : v < 32) : (encRom (BitVec.ofNat 5 v)).toNat = romByte v := by
  rw [encRom_toNat, BitVec.toNat_ofNat, Nat.mod_eq_of_lt hv]

/-- Bytes outside the alphabet by R160's ranges decode to 0 (R161). -/
theorem decRom_of_ne_romByte {b : Byte} (h : ∀ v, v < 32 → b.toNat ≠ romByte v) : decRom b = 0 :=
  decRom_outside b fun v hv => h v.toNat v.isLt (by rw [← hv, encRom_toNat])

theorem decRom_toNat (b : Byte) : (decRom b).toNat = romValue b.toNat := by
  by_cases hmem : ∃ v, encRom v = b
  · obtain ⟨v, rfl⟩ := hmem
    rw [decRom_encRom, encRom_toNat, romValue_romByte v.isLt]
  · have hout : ∀ v, v < 32 → b.toNat ≠ romByte v := fun v hv hb =>
      hmem ⟨BitVec.ofNat 5 v, BitVec.eq_of_toNat_eq ((encRom_ofNat_toNat hv).trans hb.symm)⟩
    rw [decRom_of_ne_romByte hout, romValue_outside hout]
    rfl

end Sys2Proof.Claims

namespace Sys2Proof.Machine

/-! ### DECODE reads the token through DEC_ROM -/

variable {s : State} {m m' : Memory}

/-- Buffers whose first TLEN bytes have the same symbol values give the same decoded fields (R191). -/
theorem State.decodedFields_congr_token (h : ∀ j, j < s.tlen.toNat → decRom (m.read j) = decRom (m'.read j)) :
    { s with token := m }.decodedFields = { s with token := m' }.decodedFields := by
  have hsymbols : { s with token := m }.tokenSymbols = { s with token := m' }.tokenSymbols :=
    List.map_congr_left fun j hj => h j (List.mem_range.mp hj)
  refine Vector.ext fun i hi => ?_
  rw [State.decodedFields_getElem _ i hi, State.decodedFields_getElem _ i hi, hsymbols]
  rfl

/-- DECODE of buffers whose first TLEN bytes have the same symbol values ends alike: the length check reads no byte
(R190), and the fields are made of the symbol values (R191). -/
theorem exec_decode_congr_token (h : ∀ j, j < s.tlen.toNat → decRom (m.read j) = decRom (m'.read j)) :
    ∃ t u, exec .decode { s with token := m } = .next t ∧ exec .decode { s with token := m' } = .next u ∧
      Claims.SameButToken t u := by
  by_cases hlen : s.tlen.toNat = s.expLen
  · refine ⟨_, _, exec_of_effect (.decode hlen), exec_of_effect (.decode hlen), ?_⟩
    rw [State.decodedFields_congr_token h]
    rfl
  · exact ⟨_, _, exec_of_cause (.decodeLength hlen), exec_of_cause (.decodeLength hlen), rfl⟩

end Sys2Proof.Machine

namespace Sys2Proof.Claims

open Sys2Proof.Machine

/-- A command without an F operand has none of F, RSV and UPPER non-zero (R96). -/
theorem raisesIllegal_of_unusedF {c : Word} (hop : bitsOf c 24 8 ∉ opsWithF)
    (h : bitsOf c 20 4 ≠ 0 ∨ bitsOf c 0 12 ≠ 0 ∨ bitsOf c 32 32 ≠ 0) : RaisesIllegal c :=
  h.elim (fun hf => illegalWordsRaiseIllegal.1 c (.inr (.inr (.inr (.inl ⟨hop, hf⟩))))) raisesIllegal_of_reserved

/-! ### The statements -/

/-- Settles O49: the byte and `a` both have the symbol value 0, and DECODE reads a byte only through its value. -/
theorem unknownByteDecodesAsA : Obligations.UnknownByteDecodesAsA := by
  intro s j b hwf hj hout
  refine exec_decode_congr_token fun i _ => ?_
  rw [Memory.read_write j i b hwf hj, Memory.read_write j i 0x61 hwf hj]
  split
  · have ha : decRom 0x61 = 0 := decRom_encRom 0
    rw [decRom_of_ne_romByte hout, ha]
  · rfl

/-- Settles O39: v up to 31 is a symbol, whose byte is the ROM's; v above 31 is E_OPERAND's cause; OP 0x20 uses no F. -/
theorem symoutLooksUpByte : Obligations.SymoutLooksUpByte := by
  refine ⟨fun v hv => decode_wordOf (i := .symout v) (by decide : 0 < 16) hv, fun v s hv => ?_,
    fun v s hv => exec_of_cause (.symoutOperand v hv),
    fun c hop => raisesIllegal_of_unusedF (by rw [hop]; decide)⟩
  rw [exec_of_effect (.symout v hv), ← encRom_ofNat_toNat (Nat.lt_succ_of_le hv), BitVec.ofNat_toNat]
  rfl

/-- Settles O40: SYMIN has its effect on every byte, and DEC_ROM is R161's ranges; OP 0x21 uses no F. -/
theorem syminLooksUpValue : Obligations.SyminLooksUpValue := by
  refine ⟨fun b => decode_wordOf (i := .symin b) (by decide : 0 < 16) b.isLt, fun b s => ?_,
    fun c hop => raisesIllegal_of_unusedF (by rw [hop]; decide)⟩
  rw [exec_of_effect (.symin b), ← decRom_toNat, BitVec.ofNat_toNat]
  rfl

end Sys2Proof.Claims
end

section
/-! The symbol codec (spec/43_codec.md): ENCODE's symbols and DECODE's values as segments of one bit stream, which
fields the codec reads of the schema, and the round trips between the two. -/

namespace Sys2Proof.Machine

/-! ### Segments of a bit stream -/

theorem segment_eq_zero {b : Nat → Bool} {p r : Nat} (h : ∀ q, q < r → b (p + q) = false) :
    segment b p r = 0 := by
  induction r with
  | zero => rfl
  | succ r ih => rw [segment, ih fun q hq => h q (by omega), h r (by omega)]; rfl

/-- A segment whose last c bits are 0 is its first part shifted. -/
theorem segment_of_false_tail {b : Nat → Bool} {p a c : Nat} (h : ∀ q, q < c → b (p + a + q) = false) :
    segment b p (a + c) = segment b p a * 2 ^ c := by
  rw [segment_add, segment_eq_zero h, Nat.add_zero]

/-- A segment without its last c bits is its first part. -/
theorem segment_div_two_pow (b : Nat → Bool) (p a c : Nat) : segment b p (a + c) / 2 ^ c = segment b p a := by
  rw [segment_add, Nat.add_comm, Nat.add_mul_div_right _ _ (Nat.two_pow_pos c),
    Nat.div_eq_of_lt (segment_lt b (p + a) c), Nat.zero_add]

/-- A number below 2^r is the segment of its own bits, the most significant first. -/
theorem segment_eq_of_testBit {b : Nat → Bool} {p r x : Nat} (hx : x < 2 ^ r)
    (h : ∀ i, i < r → x.testBit i = b (p + (r - 1 - i))) : segment b p r = x := by
  refine Nat.eq_of_testBit_eq fun i => ?_
  rw [segment_testBit]
  by_cases hi : i < r
  · rw [h i hi, decide_eq_true hi, Bool.true_and]
  · rw [decide_eq_false hi, Bool.false_and,
      Nat.testBit_lt_two_pow (lt_of_lt_of_le hx (Nat.pow_le_pow_right (by decide) (Nat.le_of_not_lt hi)))]

/-- Five bits as a sum, bit 4 first. -/
theorem sum_five_eq_segment (b : Nat → Bool) (p : Nat) :
    ∑ m : Fin 5, (b (p + m)).toNat * 2 ^ (4 - m.val) = segment b p 5 := by
  rw [Fin.sum_univ_eq_sum_range (fun m => (b (p + m)).toNat * 2 ^ (4 - m)) 5]
  simp only [Finset.sum_range_succ, Finset.sum_range_zero, segment]
  omega

/-! ### The bitstream of a schema -/

/-- Every bit of the stream belongs to a field (R10). -/
theorem exists_field_at (xs : List Field) : ∀ m, m < (xs.map fun x => x.width.toNat).sum →
    ∃ i x q, xs[i]? = some x ∧ q < x.width.toNat ∧ m = offsetOf xs i + q := by
  induction xs with
  | nil => intro m hm; exact absurd hm (Nat.not_lt_zero m)
  | cons y ys ih =>
    intro m hm
    rw [List.map_cons, List.sum_cons] at hm
    by_cases hfirst : m < y.width.toNat
    · exact ⟨0, y, m, rfl, hfirst, (Nat.zero_add m).symm⟩
    · obtain ⟨i, x, q, hx, hq, he⟩ := ih (m - y.width.toNat) (by omega)
      have hoff : offsetOf (y :: ys) (i + 1) = y.width.toNat + offsetOf ys i := by simp [offsetOf]
      exact ⟨i + 1, x, q, hx, hq, by omega⟩

/-- ENCODE's symbols depend on the fields only through their bitstream (R187). -/
theorem encodeSymbols_congr {xs ys : List Field} (h : streamOf xs = streamOf ys) :
    encodeSymbols xs = encodeSymbols ys := by
  have hlen : (encodeSymbols xs).length = (encodeSymbols ys).length := by
    rw [encodeSymbols_length, encodeSymbols_length, ← streamOf_length, ← streamOf_length, h]
  refine List.ext_getElem hlen fun j hx hy => BitVec.eq_of_toNat_eq ?_
  have hget := (encodeSymbols_getD xs j).trans ((congrArg (symbolOf · j) h).trans (encodeSymbols_getD ys j).symm)
  rwa [List.getD_eq_getElem _ _ hx, List.getD_eq_getElem _ _ hy] at hget

/-- What is read of the schema fields alone is the same for states that agree in it below FCOUNT. -/
theorem State.schema_map_congr {α : Type} {g : Field → α} {s t : State} (hc : t.fcount = s.fcount)
    (h : ∀ f : Fin 8, f.val < s.fcount.toNat → g (t.field f) = g (s.field f)) :
    t.schema.map g = s.schema.map g := by
  refine List.ext_getElem? fun i => ?_
  rw [List.getElem?_map, List.getElem?_map]
  by_cases hi : i < 8
  · rw [t.schema_getElem? ⟨i, hi⟩, s.schema_getElem? ⟨i, hi⟩, hc]
    split
    · next hlt => exact congrArg some (h _ hlt)
    · rfl
  · have hlen : ∀ u : State, u.schema[i]? = none := fun u =>
      List.getElem?_eq_none (by rw [u.schema_length]; simp only [Config.maxFields]; omega)
    rw [hlen, hlen]

/-- The bitstream depends on a field only through its width and its value's low bits (R188). -/
theorem State.streamOf_schema_congr {s t : State} (hc : t.fcount = s.fcount)
    (h : ∀ f : Fin 8, f.val < s.fcount.toNat → (t.field f).width = (s.field f).width ∧
      (t.field f).value.toNat % 2 ^ (s.field f).width.toNat = (s.field f).value.toNat % 2 ^ (s.field f).width.toNat) :
    streamOf t.schema = streamOf s.schema := by
  have hbits := State.schema_map_congr (g := fun x => fieldBits x.value.toNat x.width.toNat) hc fun f hf => by
    obtain ⟨hwidth, hvalue⟩ := h f hf
    rw [hwidth]
    exact fieldBits_congr hvalue
  simpa only [streamOf, Machine.bitstream, List.flatMap_def, List.map_map, Function.comp_def] using
    congrArg List.flatten hbits

/-! ### The states ENCODE and DECODE leave -/

/-- The state after ENCODE (R183). -/
def State.encoded (s : State) : State :=
  State.done { s with
    token := s.token.writeFrom 0 ((encodeSymbols s.schema).map encRom)
    tlen := BitVec.ofNat 16 (encodeSymbols s.schema).length
    fields := s.restoredFields }

/-- The state after DECODE of a token of the expected length (R191). -/
def State.decoded (s : State) : State := State.done { s with fields := s.decodedFields }

theorem exec_encode (s : State) : exec .encode s = .next s.encoded := exec_of_effect .encode

theorem exec_decode {s : State} (h : s.tlen.toNat = s.expLen) : exec .decode s = .next s.decoded :=
  exec_of_effect (.decode h)

theorem Field.restored_congr {x y : Field} (hvalue : x.value = y.value) (hwidth : x.width = y.width) :
    x.restored = y.restored := by
  calc x.restored = { value := x.value, width := x.width, rem := x.width } := rfl
    _ = { value := y.value, width := y.width, rem := y.width } := by rw [hvalue, hwidth]

theorem State.encoded_field (s : State) (f : Fin 8) :
    s.encoded.field f = if f.val < s.fcount.toNat then (s.field f).restored else s.field f :=
  s.restoredFields_getElem f f.isLt

end Sys2Proof.Machine

namespace Sys2Proof.Claims

open Sys2Proof.Machine

/-! ### Illegal words and the length check -/

/-- A command without operands has one word; every other word with its OP is illegal (R93, R96). -/
theorem raisesIllegal_of_no_operands {op : Opcode} (hf : op.usesF = false) (himm : op.usesImm = false) {c : Word}
    (hop : bitsOf c 24 8 = op.byte.toNat) (hc : c ≠ wordOf op.byte.toNat 0 0) : RaisesIllegal c := by
  refine illegalWordsRaiseIllegal.1 c (by_contra fun hlegal => hc ?_)
  obtain ⟨op', hnames⟩ := not_illegalBits_iff.mp hlegal
  rw [bitsOf_op, BitVec.toNat_inj, hnames.opcode] at hop
  have hsame : op' = op := by
    rw [← Option.some_inj, ← Opcode.ofByte?_byte op', ← Opcode.ofByte?_byte op, hop]
  subst hsame
  calc c = commandWord (opField c) (fField c) (immField c) := (commandWord_fields hnames.upper hnames.reserved).symm
    _ = commandWord op'.byte 0 0 := by rw [hnames.opcode, hnames.unusedF hf, hnames.unusedImm himm]
    _ = wordOf op'.byte.toNat 0 0 := by cases op' <;> rfl

theorem raise_length (s : State) : s.raise .length = lengthFailed s := by
  rw [lengthFailed, expected_eq]; rfl

/-! ### States with the same schema -/

/-- t has the schema of s: its FCOUNT and the widths of its fields 0 to FCOUNT−1 (R180). -/
structure SameSchema (s t : State) : Prop where
  fcount : t.fcount = s.fcount
  width : ∀ f : Fin 8, f.val < s.fcount.toNat → (t.field f).width = (s.field f).width

section Schema

variable {s t : State}

theorem sameSchema_of_exec {i : Instr} (h : exec i s = .next t) : SameSchema s t :=
  ⟨exec_fcount h, fun f _ => exec_width h f⟩

theorem SameSchema.tbits (h : SameSchema s t) : tbits t = tbits s := by
  rw [tbits_eq, tbits_eq, State.totalBits, State.totalBits,
    State.schema_map_congr h.fcount fun f hf => congrArg BitVec.toNat (h.width f hf)]

theorem SameSchema.expected (h : SameSchema s t) : expected t = expected s := by
  rw [Claims.expected, Claims.expected, h.tbits]

theorem SameSchema.offsetAt (h : SameSchema s t) {f : Fin 8} (hf : f.val < s.fcount.toNat) :
    offsetAt t f = offsetAt s f :=
  Finset.sum_congr rfl fun g _ => if_ctx_congr Iff.rfl
    (fun hg => congrArg BitVec.toNat (h.width g (lt_trans hg hf))) fun _ => rfl

/-- A schema field's bits lie inside the stream (R10). -/
theorem offsetAt_add_width_le {f : Fin 8} (hf : f.val < s.fcount.toNat) :
    offsetAt s f + (s.field f).width.toNat ≤ tbits s := by
  have hget : s.schema[f.val]? = some (s.field f) := by rw [s.schema_getElem? f, if_pos hf]
  rw [tbits_eq, Claims.offsetAt, ← offsetOf_schema s f hf]
  exact offsetOf_add_width_le _ _ _ hget

/-- Every stream position is a bit of one schema field (R10). -/
theorem exists_offsetAt {m : Nat} (hm : m < tbits s) :
    ∃ f : Fin 8, f.val < s.fcount.toNat ∧ ∃ q, q < (s.field f).width.toNat ∧ m = offsetAt s f + q := by
  rw [tbits_eq] at hm
  obtain ⟨i, x, q, hx, hq, rfl⟩ := exists_field_at s.schema m hm
  obtain ⟨hi, -⟩ := List.getElem?_eq_some_iff.mp hx
  rw [s.schema_length, lt_min_iff] at hi
  rw [s.schema_getElem? ⟨i, hi.2⟩, if_pos hi.1, Option.some_inj] at hx
  subst hx
  exact ⟨⟨i, hi.2⟩, hi.1, q, hq, congrArg (· + q) (offsetOf_schema s ⟨i, hi.2⟩ hi.1)⟩

/-! ### The bits of the fields and the bits of the token -/

theorem dataBit_field {f : Fin 8} (hf : f.val < s.fcount.toNat) {q : Nat} (hq : q < (s.field f).width.toNat) :
    dataBit s (offsetAt s f + q) = (s.field f).value.toNat.testBit ((s.field f).width.toNat - 1 - q) := by
  rw [offsetAt, ← offsetOf_schema s f hf]
  exact streamOf_getD s.schema f.val q (s.field f) (by rw [s.schema_getElem? f, if_pos hf]) hq

theorem dataBit_beyond {m : Nat} (hm : tbits s ≤ m) : dataBit s m = false := by
  have hlen : s.bitstream.length ≤ m := by
    rw [tbits_eq] at hm
    exact (streamOf_length s.schema).trans_le hm
  rw [dataBit, List.getD_eq_getElem?_getD, List.getElem?_eq_none hlen]
  rfl

/-- A schema field's bits of the stream are its value's low WIDTH bits (R188). -/
theorem segment_dataBit {f : Fin 8} (hf : f.val < s.fcount.toNat) :
    segment (dataBit s) (offsetAt s f) (s.field f).width.toNat =
      (s.field f).value.toNat % 2 ^ (s.field f).width.toNat := by
  refine segment_eq_of_testBit (Nat.mod_lt _ (Nat.two_pow_pos _)) fun i hi => ?_
  rw [Nat.testBit_mod_two_pow, decide_eq_true hi, Bool.true_and, dataBit_field hf (by omega)]
  congr 1
  omega

theorem romValue_lt (b : Byte) : romValue b.toNat < 32 := decRom_toNat b ▸ (decRom b).isLt

/-- A byte's symbol value is the token stream's five bits at its place (R68). -/
theorem romValue_read (s : State) (j : Nat) : romValue (s.token.read j).toNat = segment (tokenBit s) (5 * j) 5 := by
  refine (segment_eq_of_testBit (romValue_lt _) fun i hi => ?_).symm
  rw [tokenBit, show (5 * j + (5 - 1 - i)) / 5 = j by omega, show 4 - (5 * j + (5 - 1 - i)) % 5 = i by omega]

/-! ### ENCODE -/

/-- ENCODE's symbol j is the five stream bits at its place (R187). -/
theorem encodeSymbols_eq_segment (s : State) (j : Nat) :
    ((encodeSymbols s.schema).getD j 0).toNat = segment (dataBit s) (5 * j) 5 := by
  refine (segment_eq_of_testBit (BitVec.isLt _) fun i hi => ?_).symm
  have hbit := encodeSymbols_testBit s.schema j (4 - i) (by omega)
  rwa [show 4 - (4 - i) = i by omega] at hbit

theorem encoded_tlen (s : State) : s.encoded.tlen = BitVec.ofNat 16 (expected s) :=
  congrArg (BitVec.ofNat 16) (s.encodeSymbols_length.trans (expected_eq s).symm)

/-- EXPLEN fits in TLEN from every state (R33). -/
theorem expected_lt (s : State) : expected s < 2 ^ 16 :=
  (expected_eq s).trans_lt (lt_of_le_of_lt s.expLen_le (by decide))

theorem encoded_tlen_toNat (s : State) : s.encoded.tlen.toNat = expected s := by
  rw [encoded_tlen, BitVec.toNat_ofNat, Nat.mod_eq_of_lt (expected_lt s)]

section Encoded

variable (hwf : s.token.wf = true) (hlegal : LegalWidths s)
include hwf hlegal

/-- The token after ENCODE, byte by byte (R183). -/
theorem encoded_read_eq (j : Nat) : s.encoded.token.read j =
    if j < expected s then encRom ((encodeSymbols s.schema).getD j 0) else s.token.read j := by
  have hroom : s.expLen ≤ Config.tokenBytes := le_trans (State.expLen_le_103 hlegal) (by decide)
  rw [expected_eq]
  exact State.encoded_read hwf hroom j

theorem encoded_read_toNat {j : Nat} (hj : j < expected s) :
    (s.encoded.token.read j).toNat = romByte (segment (dataBit s) (5 * j) 5) := by
  rw [encoded_read_eq hwf hlegal, if_pos hj, encRom_toNat, encodeSymbols_eq_segment]

/-- The token ENCODE leaves holds the bitstream (R187). -/
theorem tokenBit_encoded {m : Nat} (hm : m < tbits s) : tokenBit s.encoded m = dataBit s m := by
  have hj : m / 5 < expected s := by rw [expected]; omega
  rw [tokenBit, encoded_read_toNat hwf hlegal hj, romValue_romByte (segment_lt _ _ 5), segment_testBit,
    decide_eq_true (by omega), Bool.true_and]
  congr 1
  omega

end Encoded

/-! ### DECODE -/

theorem decoded_field_of_ge {f : Fin 8} (hf : s.fcount.toNat ≤ f.val) : s.decoded.field f = s.field f :=
  (s.decodedFields_getElem f.val f.isLt).trans (if_neg (Nat.not_lt.mpr hf))

/-- A schema field after DECODE: the token's bits at the field's offset (R191). -/
theorem decoded_field_of_lt (hlen : s.tlen.toNat = expected s) {f : Fin 8} (hf : f.val < s.fcount.toNat) :
    s.decoded.field f =
      { value := trunc64 (segment (tokenBit s) (offsetAt s f) (s.field f).width.toNat)
        width := (s.field f).width
        rem := (s.field f).width } := by
  have hbits : segment (streamBit s.tokenSymbols) (offsetAt s f) (s.field f).width.toNat =
      segment (tokenBit s) (offsetAt s f) (s.field f).width.toNat := by
    refine segment_congr fun q hq => ?_
    have hend := offsetAt_add_width_le hf
    rw [expected] at hlen
    rw [State.tokenSymbols_bit s _ (by omega), decRom_toNat, tokenBit]
  rw [← hbits, offsetAt, ← offsetOf_schema s f hf]
  exact (s.decodedFields_getElem f.val f.isLt).trans (if_pos hf)

/-- DECODE reads of the state the schema, TLEN and the token's first T bits alone (R192, R194). -/
theorem decoded_field_congr (h : SameSchema s t) (hs : s.tlen.toNat = expected s) (ht : t.tlen = s.tlen)
    (hbits : ∀ m, m < tbits s → tokenBit t m = tokenBit s m) {f : Fin 8} (hf : f.val < s.fcount.toNat) :
    t.decoded.field f = s.decoded.field f := by
  have hseg : segment (tokenBit t) (offsetAt s f) (s.field f).width.toNat =
      segment (tokenBit s) (offsetAt s f) (s.field f).width.toNat :=
    segment_congr fun q hq => hbits _ (by have := offsetAt_add_width_le hf; omega)
  rw [decoded_field_of_lt hs hf, decoded_field_of_lt (by rw [ht, hs, h.expected]) (by rw [h.fcount]; exact hf),
    h.offsetAt hf, h.width f hf, hseg]

/-- The fields DECODE leaves hold the token's first T bits (R192). -/
theorem dataBit_decoded (hlegal : LegalWidths s) (hlen : s.tlen.toNat = expected s) {m : Nat} (hm : m < tbits s) :
    dataBit s.decoded m = tokenBit s m := by
  have hexec := exec_decode (hlen.trans (expected_eq s))
  have hschema := sameSchema_of_exec hexec
  obtain ⟨f, hf, q, hq, rfl⟩ := exists_offsetAt hm
  have hvalue : (s.decoded.field f).value.toNat = segment (tokenBit s) (offsetAt s f) (s.field f).width.toNat := by
    rw [decoded_field_of_lt hlen hf]
    exact trunc64_of_lt (lt_of_lt_of_le (segment_lt _ _ _) (Nat.pow_le_pow_right (by decide) (hlegal f)))
  rw [← hschema.offsetAt hf, dataBit_field (by rw [hschema.fcount]; exact hf) (by rw [hschema.width f hf]; exact hq),
    hschema.width f hf, hvalue, segment_testBit, decide_eq_true (by omega), Bool.true_and, hschema.offsetAt hf]
  congr 1
  omega

/-- DECODE with another token buffer ends alike if the token's first T bits, which a wrong length leaves unread, are
the same (R191, R192, R194). -/
theorem exec_decode_congr_bits {m : Memory}
    (h : s.tlen.toNat = expected s → ∀ q, q < tbits s → tokenBit { s with token := m } q = tokenBit s q) :
    ∃ t u, exec .decode s = .next t ∧ exec .decode { s with token := m } = .next u ∧ SameButToken t u := by
  by_cases hlen : s.tlen.toNat = expected s
  · have hfields : { s with token := m }.decodedFields = s.decodedFields := by
      refine Vector.ext fun i hi => ?_
      obtain hlt | hge := Nat.lt_or_ge i s.fcount.toNat
      · exact decoded_field_congr (s := s) (t := { s with token := m }) ⟨rfl, fun _ _ => rfl⟩ hlen rfl (h hlen)
          (f := ⟨i, hi⟩) hlt
      · exact (decoded_field_of_ge (s := { s with token := m }) (f := ⟨i, hi⟩) hge).trans
          (decoded_field_of_ge (s := s) (f := ⟨i, hi⟩) hge).symm
    have hexp := hlen.trans (expected_eq s)
    refine ⟨_, _, exec_decode hexp, exec_decode (s := { s with token := m }) hexp, ?_⟩
    rw [State.decoded, State.decoded, hfields]
    rfl
  · have hexp := expected_eq s ▸ hlen
    exact ⟨_, _, exec_of_cause (.decodeLength hexp),
      exec_of_cause (s := { s with token := m }) (.decodeLength hexp), rfl⟩

end Schema

/-! ### The statements -/

/-- Settles O41: equal lengths are CHECKLEN's effect, unequal ones its cause. -/
theorem checklenComparesLength : Obligations.ChecklenComparesLength := by
  refine ⟨decode_wordOf (i := .checklen) (by decide : 0 < 16) (by decide : 0 < 256),
    fun s hlen => exec_of_effect (.checklen (hlen.trans (expected_eq s))), fun s hlen => ?_,
    fun c => raisesIllegal_of_no_operands (op := .checklen) rfl rfl⟩
  rw [exec_of_cause (.checklenLength (expected_eq s ▸ hlen)), raise_length]

/-- Settles O43: ENCODE emits EXPLEN symbols and keeps the schema, so CHECKLEN finds the length it left. -/
theorem encodeLengthIsExpected : Obligations.EncodeLengthIsExpected := by
  intro s
  have hexec := exec_encode s
  have hlen := encoded_tlen_toNat s
  exact ⟨_, hexec, hlen, checklenComparesLength.2.1 _ (hlen.trans (sameSchema_of_exec hexec).expected.symm)⟩

/-- Settles O42: the slicer's symbols are the stream's five-bit segments, of which a legal schema has at most 103. -/
theorem encodeWritesTheBitstream : Obligations.EncodeWritesTheBitstream := by
  refine ⟨decode_wordOf (i := .encode) (by decide : 0 < 16) (by decide : 0 < 256), fun s hwf hlegal =>
    ⟨_, exec_encode s, ?_, fun f => ?_, fun j hj => ?_, fun j hj => ?_⟩,
    fun c => raisesIllegal_of_no_operands (op := .encode) rfl rfl⟩
  · rw [← encoded_tlen]; rfl
  · rw [State.encoded_field]
    split <;> rfl
  · rw [encoded_read_toNat hwf hlegal hj, sum_five_eq_segment]
  · rw [encoded_read_eq hwf hlegal, if_neg (Nat.not_lt.mpr hj)]

/-- Settles O44: the last symbol's segment runs past T by 5 − p bits, which are 0; no other segment does. -/
theorem onlyLastSymbolIsPadded : Obligations.OnlyLastSymbolIsPadded := by
  intro s t hwf hlegal h hp
  rw [exec_encode, Host.Outcome.next.injEq] at h
  subst h
  have hL : expected s = (tbits s + 4) / 5 := rfl
  have hbit : ∀ j m, m < 5 → (segment (dataBit s) (5 * j) 5).testBit (4 - m) = dataBit s (5 * j + m) := by
    intro j m hm
    rw [segment_testBit, decide_eq_true (by omega), Bool.true_and]
    congr 1
    omega
  refine ⟨⟨_, segment_lt _ _ 5, encoded_read_toNat hwf hlegal (by omega), ?_,
      fun m hm => ⟨by omega, hbit _ m (by omega)⟩⟩,
    fun j hj => ⟨_, segment_lt _ _ 5, encoded_read_toNat hwf hlegal (by omega),
      fun m hm => ⟨by omega, hbit j m hm⟩⟩⟩
  have hpad := segment_of_false_tail (b := dataBit s) (p := 5 * (expected s - 1)) (a := tbits s % 5)
    (c := 5 - tbits s % 5) fun q hq => dataBit_beyond (by omega)
  rw [show tbits s % 5 + (5 - tbits s % 5) = 5 by omega] at hpad
  rw [hpad, Nat.mul_mod_left]

/-- Fields with the same bitstream give the same token and TLEN (R188). -/
theorem encoded_congr_fields {s : State} {fs : Vector Field 8}
    (h : streamOf { s with fields := fs }.schema = streamOf s.schema) :
    { { s with fields := fs }.encoded with fields := s.encoded.fields } = s.encoded := by
  rw [State.encoded, encodeSymbols_congr h]
  rfl

/-- Settles O45: the bitstream takes a value modulo 2^WIDTH, and the symbols depend on the bitstream alone. -/
theorem encodeTruncatesValues : Obligations.EncodeTruncatesValues := by
  intro s fs h
  have hsame := encoded_congr_fields (State.streamOf_schema_congr (t := { s with fields := fs }) rfl h)
  have htoken := congrArg State.token hsame
  have htlen := congrArg State.tlen hsame
  exact ⟨_, _, exec_encode s, exec_encode _, htoken, htlen⟩

/-- Settles O46: the unslicer's value of a field is the token's segment at its offset. -/
theorem decodeReadsTheBitstream : Obligations.DecodeReadsTheBitstream := by
  refine ⟨decode_wordOf (i := .decode) (by decide : 0 < 16) (by decide : 0 < 256), fun s hlen => ?_, fun s hlen => ?_,
    fun c => raisesIllegal_of_no_operands (op := .decode) rfl rfl⟩
  · rw [exec_of_cause (.decodeLength (expected_eq s ▸ hlen)), raise_length]
  · have hexec := exec_decode (hlen.trans (expected_eq s))
    refine ⟨_, hexec, rfl, fun f => ⟨exec_width hexec f, decoded_field_of_ge, fun hf => ?_⟩⟩
    rw [decoded_field_of_lt hlen hf]
    refine ⟨rfl, fun b => ?_⟩
    rw [trunc64_toNat, Nat.testBit_mod_two_pow, segment_testBit, Bool.and_assoc]

/-- Settles O47: ENCODE leaves the fields' bits in the token, and DECODE reads them back at the same offsets. -/
theorem encodeThenDecodeRoundTrip : Obligations.EncodeThenDecodeRoundTrip := by
  intro s hwf hlegal
  have hencode := exec_encode s
  refine ⟨_, hencode, fun t' hcount hwidth htlen hread => ?_⟩
  have hschema : SameSchema s t' :=
    ⟨hcount.trans (exec_fcount hencode), fun f _ => (hwidth f).trans (exec_width hencode f)⟩
  rw [encoded_tlen_toNat] at hread
  have hlen : t'.tlen.toNat = expected t' := by rw [htlen, encoded_tlen_toNat, hschema.expected]
  have hbits : ∀ m, m < tbits s → tokenBit t' m = dataBit s m := by
    intro m hm
    rw [← tokenBit_encoded hwf hlegal hm, tokenBit, tokenBit, hread (m / 5) (by rw [expected]; omega)]
  refine ⟨_, exec_decode (hlen.trans (expected_eq t')), rfl, fun f hf => ?_⟩
  have hend := offsetAt_add_width_le hf
  have hsegment := segment_congr (r := (s.field f).width.toNat) fun q hq => hbits (offsetAt s f + q) (by omega)
  rw [decoded_field_of_lt hlen (by rw [hschema.fcount]; exact hf), hschema.offsetAt hf, hschema.width f hf, hsegment,
    segment_dataBit hf]
  exact trunc64_of_lt (lt_of_lt_of_le (Nat.mod_lt _ (Nat.two_pow_pos _)) (Nat.pow_le_pow_right (by decide) (hlegal f)))

/-- The value of token byte j with the last symbol's pad bits cleared (R193, R194). -/
def canonicalValue (s : State) (j : Nat) : Nat :=
  if 5 * j + 5 ≤ tbits s then romValue (s.token.read j).toNat
  else romValue (s.token.read j).toNat / 2 ^ (5 - tbits s % 5) * 2 ^ (5 - tbits s % 5)

/-- After DECODE the fields' stream holds the token's symbols, 0 beyond T (R195). -/
theorem segment_dataBit_decoded {s : State} (hlegal : LegalWidths s) (hlen : s.tlen.toNat = expected s) {j : Nat}
    (hj : j < expected s) : segment (dataBit s.decoded) (5 * j) 5 = canonicalValue s j := by
  have hbits : ∀ r, 5 * j + r ≤ tbits s →
      segment (dataBit s.decoded) (5 * j) r = segment (tokenBit s) (5 * j) r := fun r hr =>
    segment_congr fun q hq => dataBit_decoded hlegal hlen (by omega)
  have hT := (sameSchema_of_exec (exec_decode (hlen.trans (expected_eq s)))).tbits
  rw [canonicalValue, romValue_read]
  rw [expected] at hj
  split
  · next hfull => exact hbits 5 hfull
  · next hlast =>
    have hsplit : 5 = tbits s % 5 + (5 - tbits s % 5) := by omega
    have hpad := segment_of_false_tail (b := dataBit s.decoded) (p := 5 * j) (a := tbits s % 5)
      (c := 5 - tbits s % 5) fun q hq => dataBit_beyond (by omega)
    have htop := segment_div_two_pow (tokenBit s) (5 * j) (tbits s % 5) (5 - tbits s % 5)
    rw [← hsplit] at hpad htop
    rw [hpad, htop, hbits _ (by omega)]

/-- A byte is the byte of a symbol value exactly when it is an alphabet byte of that value. -/
theorem eq_romByte_iff {c b : Nat} (hc : c < 32) :
    romByte c = b ↔ (∃ v, v < 32 ∧ b = romByte v) ∧ c = romValue b := by
  constructor
  · rintro rfl
    exact ⟨⟨c, hc, rfl⟩, (romValue_romByte hc).symm⟩
  · rintro ⟨⟨v, hv, rfl⟩, hval⟩
    rw [hval, romValue_romByte hv]

theorem canonicalValue_eq_romValue_iff (s : State) (j : Nat) : canonicalValue s j = romValue (s.token.read j).toNat ↔
    5 * j + 5 ≤ tbits s ∨ romValue (s.token.read j).toNat % 2 ^ (5 - tbits s % 5) = 0 := by
  rw [canonicalValue]
  split
  · next hfull => exact iff_of_true rfl (.inl hfull)
  · next hlast => rw [or_iff_right hlast, ← Nat.dvd_iff_div_mul_eq, Nat.dvd_iff_mod_eq_zero]

/-- Only the last symbol of a token of EXPLEN symbols can run past T, and it does when T mod 5 is not 0 (R185). -/
theorem forall_full_or_iff_last {s : State} {P : Nat → Prop} :
    (∀ j, j < expected s → 5 * j + 5 ≤ tbits s ∨ P j) ↔ (tbits s % 5 ≠ 0 → P (expected s - 1)) := by
  have hL : expected s = (tbits s + 4) / 5 := rfl
  constructor
  · exact fun h hp => (h (expected s - 1) (by omega)).resolve_left (by omega)
  · intro h j hj
    by_cases hfull : 5 * j + 5 ≤ tbits s
    · exact .inl hfull
    · rw [show j = expected s - 1 by omega]
      exact .inr (h (by omega))

/-- Settles O48: ENCODE writes the bytes of the canonical values, and a byte is its own canonical one exactly when it is
an alphabet byte without pad bits. -/
theorem decodeThenEncodeIsCanonical : Obligations.DecodeThenEncodeIsCanonical := by
  intro s hwf hlegal hlen
  have hdecode := exec_decode (hlen.trans (expected_eq s))
  have hexpected := (sameSchema_of_exec hdecode).expected
  have hlegal' : LegalWidths s.decoded := fun f => by rw [exec_width hdecode f]; exact hlegal f
  have hbytes : ∀ j, j < expected s → (s.decoded.encoded.token.read j).toNat = romByte (canonicalValue s j) := by
    intro j hj
    rw [encoded_read_toNat (s := s.decoded) hwf hlegal' (by rw [hexpected]; exact hj),
      segment_dataBit_decoded hlegal hlen hj]
  have hcanonical : ∀ j, j < expected s → canonicalValue s j < 32 := fun j hj =>
    segment_dataBit_decoded hlegal hlen hj ▸ segment_lt _ _ 5
  refine ⟨_, _, hdecode, exec_encode _, ?_, hbytes, ?_⟩
  · rw [encoded_tlen, hexpected, ← hlen, BitVec.ofNat_toNat, BitVec.setWidth_eq]
  · rw [← forall_full_or_iff_last (P := fun j => romValue (s.token.read j).toNat % 2 ^ (5 - tbits s % 5) = 0),
      ← forall₂_and]
    refine forall₂_congr fun j hj => ?_
    rw [← BitVec.toNat_inj, hbytes j hj, eq_romByte_iff (hcanonical j hj), canonicalValue_eq_romValue_iff]

/-- Settles O50: the pad bits lie at the stream positions from T up, which no field takes. -/
theorem padBitsAreIgnored : Obligations.PadBitsAreIgnored := by
  intro s m hlen hp hread htop
  refine exec_decode_congr_bits fun _ q hq => ?_
  have hL : expected s = (tbits s + 4) / 5 := rfl
  rw [tokenBit, tokenBit]
  obtain hlt | hlast := Nat.lt_or_ge (q / 5) (expected s - 1)
  · rw [hread _ hlt]
  · have hbit := congrArg (Nat.testBit · (4 - q % 5 - (5 - tbits s % 5))) htop
    simp only [Nat.testBit_div_two_pow] at hbit
    rwa [show 4 - q % 5 - (5 - tbits s % 5) + (5 - tbits s % 5) = 4 - q % 5 by omega,
      show expected s - 1 = q / 5 by omega] at hbit

/-- Settles O51: below T every stream bit is a bit of a byte below TLEN. -/
theorem decodeReadsOnlyItsToken : Obligations.DecodeReadsOnlyItsToken := by
  intro s m hread
  refine exec_decode_congr_bits fun hlen q hq => ?_
  rw [tokenBit, tokenBit, hread hlen (q / 5) (by rw [hlen, expected]; omega)]

/-- Command i run on s and on s with the field file fs: both complete and differ in the field file alone, which ends the
same below FCOUNT if ENCODE or DECODE succeeds and is kept from FCOUNT up (R180). -/
def AlikeWithFields (i : Instr) (s : State) (fs : Vector Field 8) : Prop :=
  ∃ t u, exec i s = .next t ∧ exec i { s with fields := fs } = .next u ∧
    { u with fields := t.fields } = t ∧
    (t.status.err = false → i ≠ .checklen → ∀ f : Fin 8, f.val < s.fcount.toNat → u.field f = t.field f) ∧
    ∀ f : Fin 8, s.fcount.toNat ≤ f.val → t.field f = s.field f ∧ u.field f = fs[f.val]

section AlikeWithFields

variable {s : State} {fs : Vector Field 8} (hschema : SameSchema s { s with fields := fs })
include hschema

/-- E_LENGTH changes no field and records the schema's EXPLEN (R190, R191). -/
theorem alikeWithFields_of_length {i : Instr}
    (hcause : ∀ s : State, s.tlen.toNat ≠ s.expLen → RaiseCause s i .length) (hlen : s.tlen.toNat ≠ expected s) :
    AlikeWithFields i s fs := by
  have hexp := hschema.expected
  have hlen' : s.tlen.toNat ≠ expected { s with fields := fs } := by rwa [hexp]
  rw [expected_eq] at hlen hlen'
  refine ⟨_, _, exec_of_cause (hcause s hlen), exec_of_cause (hcause { s with fields := fs } hlen'), ?_,
    (by intro herr; cases herr), fun _ _ => ⟨rfl, rfl⟩⟩
  rw [raise_length, raise_length, lengthFailed, lengthFailed, hexp]

theorem alikeWithFields_checklen : AlikeWithFields .checklen s fs := by
  by_cases hlen : s.tlen.toNat = expected s
  · have hlen' : s.tlen.toNat = expected { s with fields := fs } := by rwa [hschema.expected]
    exact ⟨_, _, checklenComparesLength.2.1 s hlen, checklenComparesLength.2.1 { s with fields := fs } hlen', rfl,
      fun _ hi => absurd rfl hi, fun _ _ => ⟨rfl, rfl⟩⟩
  · exact alikeWithFields_of_length hschema (fun _ => .checklenLength) hlen

theorem alikeWithFields_decode : AlikeWithFields .decode s fs := by
  by_cases hlen : s.tlen.toNat = expected s
  · have hlen' : s.tlen.toNat = expected { s with fields := fs } := by rwa [hschema.expected]
    exact ⟨_, _, exec_decode (hlen.trans (expected_eq s)),
      exec_decode (s := { s with fields := fs }) (hlen'.trans (expected_eq _)), rfl,
      fun _ _ _ hf => decoded_field_congr hschema hlen rfl (fun _ _ => rfl) hf,
      fun _ hf => ⟨decoded_field_of_ge hf, decoded_field_of_ge (s := { s with fields := fs }) hf⟩⟩
  · exact alikeWithFields_of_length hschema (fun _ => .decodeLength) hlen

theorem alikeWithFields_encode
    (hvalue : ∀ f : Fin 8, f.val < s.fcount.toNat → fs[f.val].value = (s.field f).value) :
    AlikeWithFields .encode s fs := by
  have hstream := State.streamOf_schema_congr (s := s) (t := { s with fields := fs }) rfl fun f hf =>
    ⟨hschema.width f hf, congrArg (·.toNat % 2 ^ (s.field f).width.toNat) (hvalue f hf)⟩
  refine ⟨_, _, exec_encode s, exec_encode _, encoded_congr_fields hstream, fun _ _ f hf => ?_, fun f hf => ?_⟩
  · rw [State.encoded_field, State.encoded_field, if_pos hf, if_pos hf]
    exact Field.restored_congr (hvalue f hf) (hschema.width f hf)
  · rw [State.encoded_field, State.encoded_field, if_neg (Nat.not_lt.mpr hf), if_neg (Nat.not_lt.mpr hf)]
    exact ⟨rfl, rfl⟩

end AlikeWithFields

/-- Settles O52: the schema's widths fix EXPLEN and the offsets, and with its values the bitstream. -/
theorem codecReadsOnlyTheSchema : Obligations.CodecReadsOnlyTheSchema := by
  intro s fs i hi hwidth hvalue
  have hschema : SameSchema s { s with fields := fs } := ⟨rfl, hwidth⟩
  simp only [List.mem_cons, List.not_mem_nil, or_false] at hi
  obtain rfl | rfl | rfl := hi
  · exact alikeWithFields_encode hschema (hvalue rfl)
  · exact alikeWithFields_checklen hschema
  · exact alikeWithFields_decode hschema

end Sys2Proof.Claims
end

section
/-! NOP and CLRSTAT (spec/44_control.md): each has a single word and completes from every state. -/

namespace Sys2Proof.Claims

open Sys2Proof.Machine

/-- Settles O30: NOP's effect is to record success; it uses neither F nor IMM, so 0 is its only word. -/
theorem nopOnlyReportsSuccess : Obligations.NopOnlyReportsSuccess :=
  ⟨decode_wordOf (i := .nop) (by decide : 0 < 16) (by decide : 0 < 256), fun _ => exec_of_effect .nop,
    fun _ => raisesIllegal_of_no_operands (op := .nop) rfl rfl⟩

/-- Settles O31: CLRSTAT's effect clears HB, STICKY, LENOBS and LENEXP, and success clears ERR and ECODE; it uses neither
F nor IMM. -/
theorem clrstatClearsStatus : Obligations.ClrstatClearsStatus :=
  ⟨decode_wordOf (i := .clrstat) (by decide : 0 < 16) (by decide : 0 < 256), fun _ => exec_of_effect .clrstat,
    fun _ => raisesIllegal_of_no_operands (op := .clrstat) rfl rfl⟩

end Sys2Proof.Claims
end

section
/-! How a CMD write ends (spec/60_exceptions.md): in success recorded or in one error recorded (R232, R233), and which
error by R235's order. -/

namespace Sys2Proof.Claims

open Sys2Proof.Machine

/-! ### R232 and R233: success or one error -/

/-- Raising an error is one of the five recordings R232 allows. -/
theorem raise_recorded (e : ErrorCode) (s : State) :
    s.raise e = failedWith 1 s ∨ s.raise e = failedWith 2 s ∨ s.raise e = failedWith 3 s ∨ s.raise e = failedWith 4 s ∨
      s.raise e = lengthFailed s := by
  cases e with
  | illegal => exact .inl rfl
  | field => exact .inr (.inl rfl)
  | operand => exact .inr (.inr (.inl rfl))
  | underflow => exact .inr (.inr (.inr (.inl rfl)))
  | length => exact .inr (.inr (.inr (.inr (raise_length s))))

/-- A word whose command succeeds keeps HB unless it is CLRSTAT's or a HASBITS (R132, R221). -/
theorem effect_keeps_hb {c : Word} {i : Instr} {s u : State} (hi : decode c = .ok i) (hu : CommandEffect s i u)
    (hclr : c ≠ wordOf 0x3F 0 0) (hop : bitsOf c 24 8 ≠ 0x10) : u.done.status.hb = s.status.hb := by
  by_contra hne
  obtain rfl | ⟨f, k, rfl⟩ := Instr.writes_hb (hu.hb_writer hne)
  · exact hclr (decode_clrstat_word hi rfl)
  · exact hop (operandsAreTheirFields c _ hi).1.symm

/-- Settles O55: the write raises an error, or its command succeeds; STICKY follows `runCommand_sticky`. -/
theorem commandsEndPrecisely : Obligations.CommandsEndPrecisely := by
  intro c s
  obtain ⟨t, ht⟩ := runCommand_completes c s
  refine ⟨t, ht, ?_⟩
  obtain ⟨e, rfl, -⟩ | ⟨i, u, hi, hu, rfl⟩ := runCommand_outcome ht
  · exact .inr (raise_recorded e s)
  · refine .inl ⟨rfl, rfl, fun hclr => ⟨?_, effect_keeps_hb hi hu hclr⟩⟩
    exact (runCommand_sticky ht hclr).trans (Bool.or_false _)

/-! ### R235: which error -/

/-- R235's order read command by command: the code of the first error of command i in state s, 0 for none. -/
def errorCode (s : State) : Instr → Nat
  | .nop | .symin _ | .encode | .clrstat => 0
  | .mask k => if 64 < k then 3 else 0
  | .symout v => if 31 < v then 3 else 0
  | .hasbits f _ | .frestore f | .fclear f => if 7 < f then 2 else 0
  | .extract f k =>
    if 7 < f then 2 else if 64 < k then 3 else if ∃ g : Fin 8, g.val = f ∧ (s.field g).rem.toNat < k then 4 else 0
  | .append f k =>
    if 7 < f then 2 else if 64 < k ∨ 2 ^ k ≤ s.arg.toNat then 3
    else if ∃ g : Fin 8, g.val = f ∧ (s.field g).rem.toNat < k then 4 else 0
  | .checklen | .decode => if s.tlen.toNat ≠ expected s then 5 else 0

/-- R235's order over the fields of a word that decodes is the order over its command: the opcode decides every test of
OP, so each command keeps its own branches. -/
theorem codeFor_of_decode {c : Word} {i : Instr} (h : decode c = .ok i) (s : State) : codeFor c s = errorCode s i := by
  have hlegal : ¬ IllegalBits c := not_illegalBits_iff.mpr ((decode_eq_ok_iff_names.mp h).imp fun _ hn => hn.1)
  obtain ⟨hop, hf, hk⟩ := operandsAreTheirFields c i h
  refine (if_neg hlegal).trans ?_
  rw [← hop, ← hf, ← hk]
  cases i <;> simp [Instr.opcode, Opcode.byte, Instr.fOperand, Instr.immOperand, opsWithF, errorCode, ite_or]

section Order

variable {s u : State} {i : Instr} {e : ErrorCode}

theorem errorCode_extract (f : Fin 8) (k : Nat) :
    errorCode s (.extract f k) = if 64 < k then 3 else if (s.field f).rem.toNat < k then 4 else 0 := by
  simp only [errorCode, if_neg (Nat.not_lt.mpr f.is_le), Fin.val_inj, exists_eq_left]

theorem errorCode_append (f : Fin 8) (k : Nat) :
    errorCode s (.append f k) =
      if 64 < k ∨ 2 ^ k ≤ s.arg.toNat then 3 else if (s.field f).rem.toNat < k then 4 else 0 := by
  simp only [errorCode, if_neg (Nat.not_lt.mpr f.is_le), Fin.val_inj, exists_eq_left]

/-- A cause of R231 holds only after every condition R235 puts before it has failed. -/
theorem errorCode_of_cause (h : RaiseCause s i e) : errorCode s i = e.code.toNat := by
  cases h with
  | hasbitsField f k hf | extractField f k hf | appendField f k hf | frestoreField f hf | fclearField f hf =>
    exact if_pos hf
  | maskOperand k hk | symoutOperand k hk => exact if_pos hk
  | extractOperand f k hk => rw [errorCode_extract, if_pos hk]; rfl
  | appendOperand f k hk => rw [errorCode_append, if_pos hk]; rfl
  | extractUnderflow f k hk hrem => rw [errorCode_extract, if_neg (Nat.not_lt.mpr hk), if_pos hrem]; rfl
  | appendUnderflow f k hk harg hrem =>
    rw [errorCode_append, if_neg (not_or.mpr ⟨Nat.not_lt.mpr hk, Nat.not_le.mpr harg⟩), if_pos hrem]; rfl
  | checklenLength hlen | decodeLength hlen => exact if_pos (expected_eq s ▸ hlen)

/-- A command that succeeds meets no condition of R235's order. -/
theorem errorCode_of_effect (h : CommandEffect s i u) : errorCode s i = 0 := by
  cases h with
  | nop | clrstat | symin | encode => rfl
  | mask k hk | symout k hk => exact if_neg (Nat.not_lt.mpr hk)
  | hasbits f | frestore f | fclear f => exact if_neg (Nat.not_lt.mpr f.is_le)
  | extract f k hk hrem => rw [errorCode_extract, if_neg (Nat.not_lt.mpr hk), if_neg (Nat.not_lt.mpr hrem)]
  | append f k hk harg hrem =>
    rw [errorCode_append, if_neg (not_or.mpr ⟨Nat.not_lt.mpr hk, Nat.not_le.mpr harg⟩), if_neg (Nat.not_lt.mpr hrem)]
  | checklen hlen | decode hlen => exact if_neg (not_not.mpr (hlen.trans (expected_eq s).symm))

end Order

/-- The code a command records is its first error's (R235). -/
theorem exec_ecode {i : Instr} {s t : State} (h : exec i s = .next t) : t.status.ecode.toNat = errorCode s i := by
  obtain ⟨e, he, rfl⟩ | ⟨u, hu, rfl⟩ := exec_cases h
  · exact (errorCode_of_cause he).symm
  · exact (errorCode_of_effect hu).symm

/-- Settles O56: an illegal word is code 1, and a legal one runs its command. -/
theorem firstErrorIsReported : Obligations.FirstErrorIsReported := by
  intro c s t h
  by_cases hc : IllegalBits c
  · cases (illegalWordsRaiseIllegal.1 c hc s).symm.trans h
    exact (if_pos hc).symm
  · obtain ⟨i, hi, hrun⟩ := illegalWordsRaiseIllegal.2.1 c hc
    rw [codeFor_of_decode hi]
    exact exec_ecode ((hrun s).symm.trans h)

end Sys2Proof.Claims
end

section
/-! Reset, and that no command faults (spec/70_reset_and_hazards.md R260, R262, R268). -/

namespace Sys2Proof.Machine

/-- A reset leaves the reset state and the accesses still pending (R260). -/
theorem step_reset {s : State} {rest : List PortInput} (h : s.inputs = .reset :: rest) :
    step s = .next { State.reset with inputs := rest } :=
  step_input h

/-- Every field resets to one freshly constructed, so its REM is its WIDTH (R27, R28). -/
theorem State.reset_field_eq_fresh : ∀ f : Fin 8, State.reset.field f = Field.fresh (State.reset.field f).width := by
  decide

/-- The label schema's widths (R28). -/
theorem State.reset_widths :
    ((List.finRange 8).map fun f => (State.reset.field f).width.toNat) = [10, 1, 64, 6, 64, 0, 0, 0] := by
  decide

end Sys2Proof.Machine

namespace Sys2Proof.Claims

open Sys2Proof.Machine

/-- Settles O25: the step answers the reset state but for the queue, which none of the clauses reads. -/
theorem resetRestoresEverything : Obligations.ResetRestoresEverything := by
  intro s rest h
  obtain ⟨-, -, -, -, -, htbits, hexpected⟩ := totalsRegistersAreComputed
  have hvalue (f : Fin 8) : (State.reset.field f).value = 0 := congrArg Field.value (State.reset_field_eq_fresh f)
  have hrem (f : Fin 8) : (State.reset.field f).rem = (State.reset.field f).width :=
    congrArg Field.rem (State.reset_field_eq_fresh f)
  exact ⟨_, step_reset h, hvalue, State.reset_widths, hrem, rfl, rfl, rfl, rfl, rfl, rfl, rfl, fun _ => rfl, htbits,
    hexpected⟩

/-- Settles O57: a command raises an error or has its effect, and either is a next state. -/
theorem everyCommandCompletes : Obligations.EveryCommandCompletes := exec_completes

end Sys2Proof.Claims
end
